-- ==== Sys2Proof/Word.lean ====
section
/-! DEFINITION. The words, levels and named alternatives of the spec: bytes and the 16-bit operation word (R80),
levels (R10), panels (R32), colours (R33), targets (R34), images (R80) and the fault codes (R230). -/

namespace Sys2Proof

/-- One byte on the serial bus, or one packed pixel pair (R37, R191). -/
abbrev Byte := BitVec 8

/-- The 16-bit host operation word (R80). -/
abbrev OpWord := BitVec 16

/-- `Level = Low | High` (R10). -/
inductive Level where
  | low
  | high
deriving DecidableEq, Repr, Inhabited

/-- `inactive(L)`, the level that is not `L` (R10). -/
def Level.other : Level → Level
  | .low => .high
  | .high => .low

/-- The two halves: Master is left, Slave is right (R32). -/
inductive Panel where
  | master
  | slave
deriving DecidableEq, Repr, Inhabited

/-- The six colours in the source's order (R33). -/
inductive PixelColor where
  | black
  | white
  | yellow
  | red
  | blue
  | green
deriving DecidableEq, Repr, Inhabited

/-- The colour index: the position in the source's list (R33). It is not the code sent to the panel (R190). -/
def PixelColor.index : PixelColor → Fin 6
  | .black => 0
  | .white => 1
  | .yellow => 2
  | .red => 3
  | .blue => 4
  | .green => 5

/-- The set of chip selects a command frame asserts (R34). -/
inductive Target where
  | master
  | slave
  | both
deriving DecidableEq, Repr, Inhabited

/-- A logical row of 1200 pixels. -/
abbrev Row := Vector PixelColor 1200

/-- The `Image` operand, `Fin 1600 → Fin 1200 → PixelColor` held as plain data (R80; log entry 9). -/
abbrev Image := Vector Row 1600

/-- The codes of the sticky fault register, in the order of R230's table. -/
inductive FaultCode where
  | illegalOp
  | badPanel
  | badColor
  | illegalState
  | frameOpen
  | frameNotOpen
  | panelMismatch
  | badLineLength
  | frameOverflow
  | incompleteFrame
  | badColorCode
  | notPowered
  | noTarget
  | csConflict
deriving DecidableEq, Repr, Inhabited

end Sys2Proof
end

