-- ==== Sys2Proof/Config.lean ====
section
/-! DEFINITION. The configuration (R7, R8, R31): the parameters the source fixes, as numbers, and the parameters it leaves
open, as opaque constants with no body. A constraint the spec puts on an open parameter holds by the way the parameter
is built from its opaque part, and every value the constraint allows can be so built (log entry 1). -/

namespace Sys2Proof.Config

/-! ### Parameters fixed by the source (R7). Plain definitions, so that no simplifier unrolls a row or a frame. -/

/-- `PANEL_W`, the logical row width. -/
def panelW : Nat := 1200
/-- `PANEL_H`, the rows of a frame. -/
def panelH : Nat := 1600
/-- `HALF_W`, the pixels of a half-row, and the seam column. -/
def halfW : Nat := 600
/-- `LINE_BYTES`, the bytes of a packed half-row. -/
def lineBytes : Nat := 300
/-- `FRAME_BYTES`, the data bytes of a frame of one half. -/
def frameBytes : Nat := 480000
/-- `ROW_YIELD_MS`, the delay after every row of `CLEAR`. -/
def rowYieldMs : Nat := 1

/-! ### Levels and pins the source leaves open (R8; D2, D9, D11, D13) -/

/-- `CS_ACTIVE_LEVEL`: the level at which a chip select is asserted. -/
opaque csActive : Level
/-- `RST_ASSERT_LEVEL`: the level the source calls "assert" in the reset pattern. -/
opaque rstAssert : Level
/-- `BUSY_ACTIVE_LEVEL`: the busy-line level that means busy. -/
opaque busyActive : Level
/-- `HAS_POWER_PIN`. -/
opaque hasPowerPin : Bool

/-- `inactive(CS_ACTIVE_LEVEL)`. -/
def csInactive : Level := csActive.other
/-- `inactive(RST_ASSERT_LEVEL)`. -/
def rstDeassert : Level := rstAssert.other

/-! ### Delays (R8; D10 to D13) -/

/-- `RST_DELAY_MS[0..4]`. -/
opaque rstDelayMs : Vector Nat 5
/-- `T_POLL_MS`. -/
opaque tPollMs : Nat
/-- `T_SETTLE_MS`. -/
opaque tSettleMs : Nat
/-- `T_SLEEP_MS`. -/
opaque tSleepMs : Nat
/-- What `T_PWR_MS` has above its least value. -/
opaque tPwrOverMs : Nat
/-- `T_PWR_MS`, any natural that is at least 100. -/
def tPwrMs : Nat := 100 + tPwrOverMs

/-! ### Command bytes and payloads (R8; D5, D6) -/

/-- `CMD_DTM`, the data-start command. -/
opaque cmdDtm : Byte
/-- `CMD_PON`, the power-on command. -/
opaque cmdPon : Byte
/-- `CMD_DRF`, the data-refresh command. -/
opaque cmdDrf : Byte
/-- `CMD_POF`, the power-off command. -/
opaque cmdPof : Byte
/-- `CMD_DSLP`, the deep-sleep command. -/
opaque cmdDslp : Byte
/-- `DSLP_MAGIC`, the deep-sleep payload byte. -/
opaque dslpMagic : Byte

/-- A length from 0 to 9 and nine bytes, of which that many count. -/
abbrev RawPayload := Fin 10 × Vector Byte 9

/-- The byte list of a raw payload; every list of 0 to 9 bytes is one. -/
def payloadOf (r : RawPayload) : List Byte := r.2.toList.take r.1.val

opaque ponRaw : RawPayload
opaque drfRaw : RawPayload
opaque pofRaw : RawPayload

/-- `PON_PAYLOAD`. -/
def ponPayload : List Byte := payloadOf ponRaw
/-- `DRF_PAYLOAD`. -/
def drfPayload : List Byte := payloadOf drfRaw
/-- `POF_PAYLOAD`. -/
def pofPayload : List Byte := payloadOf pofRaw

/-! ### The configuration sequence (R91; D7) -/

/-- One entry of `INIT_SEQ`. -/
structure InitEntry where
  target : Target
  cmd : Byte
  payload : List Byte
deriving DecidableEq, Repr

/-- A target, a command byte, a payload length less one (0 to 8) and nine bytes. -/
abbrev RawInitEntry := Target × Byte × Fin 9 × Vector Byte 9

/-- The entry of a raw entry; every entry with a payload of 1 to 9 bytes is one. -/
def entryOf (r : RawInitEntry) : InitEntry :=
  { target := r.1, cmd := r.2.1, payload := r.2.2.2.toList.take (r.2.2.1.val + 1) }

/-- The first fourteen entries ("fourteen-plus": there are at least that many). -/
opaque initFirst : Vector RawInitEntry 14
/-- The entries after the first fourteen. -/
opaque initMore : List RawInitEntry

/-- `INIT_SEQ`, in its fixed order. -/
def initSeq : List InitEntry := (initFirst.toList ++ initMore).map entryOf

/-! ### Colour codes (R190; D4) -/

/-- The assignment of the six codes 0 to 5 to the six colour indices; `COLOR_CODE` is built from it (R190). -/
opaque colorPerm : Equiv.Perm (Fin 6)

/-! ### The wire (R37, R63; D3, D21). Neither changes the trace. -/

/-- How the wire tells a command byte from a data byte. -/
inductive DcMode where
  | positional
  | dcLine
deriving DecidableEq, Repr, Inhabited

/-- The bit order of a byte on the serial wire. -/
inductive BitOrder where
  | msbFirst
  | lsbFirst
deriving DecidableEq, Repr, Inhabited

/-- `DC_MODE`. -/
opaque dcMode : DcMode
/-- `WIRE_BIT_ORDER`. -/
opaque wireBitOrder : BitOrder

/-! ### The oracle (R36, R120) -/

/-- The level the busy input shows at each draw, by the draw's number: a free value (log entry 2). -/
opaque busyDraw : Nat → Level

end Sys2Proof.Config
end

