-- ==== Sys2Proof/Machine/Operands.lean ====
section
/-! DEFINITION. The operand forms that carry pixels: colour codes, packing two codes in a byte, the validity of a byte
(R190 to R196), the split of a logical row at the seam (R210, R211) and the lines of an image (R213). -/

namespace Sys2Proof.Machine

/-- `COLOR_CODE c` (R190): injective and at most 5, whatever `Config.colorPerm` is. -/
def colorCode (c : PixelColor) : BitVec 4 := BitVec.ofNat 4 (Config.colorPerm c.index).val

/-- The byte with high nibble `h` and low nibble `l` (R9, R191). -/
def packCodes (h l : BitVec 4) : Byte := (h.zeroExtend 8 <<< 4) ||| l.zeroExtend 8

/-- `pack(e, o)`: the even-x colour in the high nibble, the odd-x colour in the low nibble (R191). -/
def pack (e o : PixelColor) : Byte := packCodes (colorCode e) (colorCode o)

/-- `hi(b) = b[7:4]`, the lane of the even pixel (R192, R195). -/
def hiNibble (b : Byte) : BitVec 4 := b.extractLsb' 4 4

/-- `lo(b) = b[3:0]`, the lane of the odd pixel (R192, R195). -/
def loNibble (b : Byte) : BitVec 4 := b.extractLsb' 0 4

/-- `valid(b)`: both nibbles are colour codes (R192). -/
def validByte (b : Byte) : Bool := (hiNibble b).toNat ≤ 5 && (loNibble b).toNat ≤ 5

/-- The six colours. -/
def allColors : List PixelColor := [.black, .white, .yellow, .red, .blue, .green]

/-- `COLOR_CODE⁻¹`, on the codes that are some colour's (R192). -/
def colorOfCode (n : BitVec 4) : Option PixelColor := allColors.find? fun c => colorCode c == n

/-- `unpack(b)`: the even and the odd colour of a valid byte (R192). -/
def unpack (b : Byte) : Option (PixelColor × PixelColor) :=
  match colorOfCode (hiNibble b), colorOfCode (loNibble b) with
  | some e, some o => some (e, o)
  | _, _ => none

/-- `packHalf(h)`: byte `k` is `pack(h(2k), h(2k+1))`, for `k` from 0 to 299 (R193). -/
def packHalf (h : Fin 600 → PixelColor) : List Byte :=
  List.ofFn (n := Config.lineBytes) fun k =>
    have hk : k.val < 300 := k.isLt
    pack (h ⟨2 * k.val, by omega⟩) (h ⟨2 * k.val + 1, by omega⟩)

/-- `fill(c) = pack(c, c)`, the byte `CLEAR c` sends (R194). -/
def fill (c : PixelColor) : Byte := pack c c

/-- `split(row, p)`: columns 0 to 599 are Master's, 600 to 1199 are Slave's (R210). -/
def split (row : Fin 1200 → PixelColor) (p : Panel) : Fin 600 → PixelColor :=
  match p with
  | .master => fun x => row ⟨x.val, by have := x.isLt; omega⟩
  | .slave => fun x => row ⟨600 + x.val, by have := x.isLt; omega⟩

/-- Row `y` of an image, read as `img y x` (R87). -/
def imageRow (img : Image) (y : Fin 1600) : Fin 1200 → PixelColor := fun x => (img[y.val])[x.val]

/-- The packed half-rows of half `p` of an image, top to bottom (R213). -/
def imageLines (img : Image) (p : Panel) : List (List Byte) :=
  List.ofFn (n := Config.panelH) fun y =>
    have hy : y.val < 1600 := y.isLt
    packHalf (split (imageRow img ⟨y.val, hy⟩) p)

/-- The image with every pixel of one colour (R214). -/
def uniformImage (c : PixelColor) : Image := Vector.replicate 1600 (Vector.replicate 1200 c)

/-- The colour that a frame's data bytes give local pixel `(y, x)`: byte `300·y + x div 2` carries it, in its high nibble
if `x` is even and in its low nibble if `x` is odd (R62, R177). -/
def framePixel (bytes : List Byte) (y x : Nat) : Option PixelColor :=
  match bytes[Config.lineBytes * y + x / 2]? with
  | some b => colorOfCode (if x % 2 = 0 then hiNibble b else loNibble b)
  | none => none

end Sys2Proof.Machine
end

