-- ==== Sys2Proof/Syntax.lean ====
section
/-! DEFINITION. The host operation set: one constructor for each row of spec/opcode_table.json (R3, R81). -/

namespace Sys2Proof

/-- The eleven host operations with their decoded operands (R81, R83 to R85). -/
inductive Instr where
  /-- `RESET` (R141) -/
  | reset
  /-- `INITIALIZE` (R143); the constructor is spelled so because Lean keeps the other spelling for a command of its own -/
  | initialise
  /-- `CLEAR c` (R212) -/
  | clear (c : PixelColor)
  /-- `BEGIN_FRAME p` (R170) -/
  | beginFrame (p : Panel)
  /-- `WRITE_LINE p, bs` (R172, R173) -/
  | writeLine (p : Panel) (bs : List Byte)
  /-- `END_FRAME p` (R176) -/
  | endFrame (p : Panel)
  /-- `REFRESH_NOW` (R145) -/
  | refreshNow
  /-- `SLEEP` (R147) -/
  | sleep
  /-- `POWER_ON` (R148) -/
  | powerOn
  /-- `POWER_OFF` (R149) -/
  | powerOff
  /-- `STREAM_IMAGE img` (R213) -/
  | streamImage (img : Image)
deriving DecidableEq, Repr

end Sys2Proof
end

