-- ==== Sys2Proof/Decode.lean ====
section
/-! DEFINITION. The host operation word and its operand (R80 to R87): the fields, the decoder in the order of R82's checks,
and after it the encoder from the same opcode map (R81, R93). -/

namespace Sys2Proof

/-- The operand that travels with an operation word (R80): `None`, `Bytes(bs)` or `Image(img)`. -/
inductive Operand where
  | absent
  | bytes (bs : List Byte)
  | image (img : Image)
deriving DecidableEq, Repr

/-- A host operation as presented on `HOST_OP`: a pair `(w, operand)` (R80). -/
structure HostOp where
  word : OpWord
  operand : Operand
deriving DecidableEq, Repr

/-- The eleven operation codes of R81's map. -/
inductive OpCode where
  | reset
  | initialise
  | clear
  | beginFrame
  | writeLine
  | endFrame
  | refreshNow
  | sleep
  | powerOn
  | powerOff
  | streamImage
deriving DecidableEq, Repr

/-- `OP = w[15:12]` (R80). -/
def opField (w : OpWord) : BitVec 4 := w.extractLsb' 12 4
/-- `ARG = w[11:8]` (R80). -/
def argField (w : OpWord) : BitVec 4 := w.extractLsb' 8 4
/-- `RSV = w[7:0]` (R80). -/
def rsvField (w : OpWord) : BitVec 8 := w.extractLsb' 0 8

/-- The opcode map read from `OP` (R81); 0x0 and 0xC to 0xF are reserved (R86). -/
def opCodeOfBits (b : BitVec 4) : Option OpCode :=
  match b.toNat with
  | 0x1 => some .reset
  | 0x2 => some .initialise
  | 0x3 => some .clear
  | 0x4 => some .beginFrame
  | 0x5 => some .writeLine
  | 0x6 => some .endFrame
  | 0x7 => some .refreshNow
  | 0x8 => some .sleep
  | 0x9 => some .powerOn
  | 0xA => some .powerOff
  | 0xB => some .streamImage
  | _ => none

/-- The panel operand: 0 is Master, 1 is Slave, the rest is `BadPanel` (R83). -/
def panelOfArg (a : BitVec 4) : Except FaultCode Panel :=
  match a.toNat with
  | 0 => .ok .master
  | 1 => .ok .slave
  | _ => .error .badPanel

/-- The colour operand: an index from 0 to 5, the rest is `BadColor` (R84). -/
def colorOfArg (a : BitVec 4) : Except FaultCode PixelColor :=
  match a.toNat with
  | 0 => .ok .black
  | 1 => .ok .white
  | 2 => .ok .yellow
  | 3 => .ok .red
  | 4 => .ok .blue
  | 5 => .ok .green
  | _ => .error .badColor

/-- An operation that takes no argument: `ARG` must be 0 (R85). -/
def withoutArg (a : BitVec 4) (i : Instr) : Except FaultCode Instr :=
  if a = 0 then .ok i else .error .illegalOp

/-- Checks 3 and 4 of R82: the operand kind that R81 gives for the operation, then `ARG`. -/
def decodeOperands (op : OpCode) (a : BitVec 4) (o : Operand) : Except FaultCode Instr :=
  match op, o with
  | .reset, .absent => withoutArg a .reset
  | .initialise, .absent => withoutArg a .initialise
  | .clear, .absent => (colorOfArg a).map .clear
  | .beginFrame, .absent => (panelOfArg a).map .beginFrame
  | .writeLine, .bytes bs => (panelOfArg a).map fun p => .writeLine p bs
  | .endFrame, .absent => (panelOfArg a).map .endFrame
  | .refreshNow, .absent => withoutArg a .refreshNow
  | .sleep, .absent => withoutArg a .sleep
  | .powerOn, .absent => withoutArg a .powerOn
  | .powerOff, .absent => withoutArg a .powerOff
  | .streamImage, .image img => withoutArg a (.streamImage img)
  | _, _ => .error .illegalOp

/-- `decode(w, operand)` (R82): the checks in their order, the first that fails giving the fault. -/
def decode (w : OpWord) (o : Operand) : Except FaultCode Instr :=
  match opCodeOfBits (opField w) with
  | none => .error .illegalOp
  | some op => if rsvField w = 0 then decodeOperands op (argField w) o else .error .illegalOp

/-! ### The encoder -/

/-- The `OP` value of R81's map. -/
def opBits : OpCode → BitVec 4
  | .reset => 0x1
  | .initialise => 0x2
  | .clear => 0x3
  | .beginFrame => 0x4
  | .writeLine => 0x5
  | .endFrame => 0x6
  | .refreshNow => 0x7
  | .sleep => 0x8
  | .powerOn => 0x9
  | .powerOff => 0xA
  | .streamImage => 0xB

/-- The panel index (R32). -/
def panelArg : Panel → BitVec 4
  | .master => 0
  | .slave => 1

/-- The colour index as `ARG` (R84). -/
def colorArg (c : PixelColor) : BitVec 4 := BitVec.ofNat 4 c.index.val

/-- `OP << 12 | ARG << 8`, with `RSV` 0 (R93). -/
def opWord (op : OpCode) (arg : BitVec 4) : OpWord := opBits op ++ arg ++ 0#8

/-- The word and operand of an operation (R81, R93). -/
def encode : Instr → HostOp
  | .reset => { word := opWord .reset 0, operand := .absent }
  | .initialise => { word := opWord .initialise 0, operand := .absent }
  | .clear c => { word := opWord .clear (colorArg c), operand := .absent }
  | .beginFrame p => { word := opWord .beginFrame (panelArg p), operand := .absent }
  | .writeLine p bs => { word := opWord .writeLine (panelArg p), operand := .bytes bs }
  | .endFrame p => { word := opWord .endFrame (panelArg p), operand := .absent }
  | .refreshNow => { word := opWord .refreshNow 0, operand := .absent }
  | .sleep => { word := opWord .sleep 0, operand := .absent }
  | .powerOn => { word := opWord .powerOn 0, operand := .absent }
  | .powerOff => { word := opWord .powerOff 0, operand := .absent }
  | .streamImage img => { word := opWord .streamImage 0, operand := .image img }

/-! ### The table's words -/

/-- The operand presented with a bare word of the opcode table, which gives the operand no bits: of the kind R81 gives
for the word's `OP`, with nothing in it but zeros, that is no byte, or the image of colour index 0 (log entry 10). -/
def zeroOperand (w : OpWord) : Operand :=
  match opCodeOfBits (opField w) with
  | some .writeLine => .bytes []
  | some .streamImage => .image (Vector.replicate 1600 (Vector.replicate 1200 .black))
  | _ => .absent

/-- A bare word of the opcode table as a host operation. -/
def tableHostOp (w : Nat) : HostOp :=
  { word := BitVec.ofNat 16 w, operand := zeroOperand (BitVec.ofNat 16 w) }

/-- The operation the decoder reads from a word of the opcode table; none where it refuses, or where the bits do not
fit the one format of 16 bits (R80). -/
def decodeTableWord (nbits w : Nat) : Option Instr :=
  if nbits ≤ 16 ∧ w < 2 ^ 16 then
    match decode (tableHostOp w).word (tableHostOp w).operand with
    | .ok i => some i
    | .error _ => none
  else none

end Sys2Proof
end

