-- ==== Sys2Proof/Machine/State.lean ====
section
/-! DEFINITION. The state of the block (R20 to R26, R39, R42), the micro-operations its micro-program is a list of, the
events of its trace, the reasons a step can stop, and the state right after a block reset. The block addresses no memory
(R60), so State holds none. -/

namespace Sys2Proof.Machine

/-- The lifecycle states (R21), in the order of their 3-bit codes. -/
inductive Life where
  | uninitialized
  | resetting
  | configuring
  | ready
  | streaming
  | refreshing
  | sleeping
  | poweredOff
deriving DecidableEq, Repr, Inhabited

/-- `Pin = {CS_M, CS_S, RST, PWR}` (R26). -/
inductive Pin where
  | csM
  | csS
  | rst
  | pwr
deriving DecidableEq, Repr, Inhabited

/-- The output pin latches (R26). `none` is the spec's own value: not driven since block reset, level unknown. -/
structure Pins where
  csM : Option Level
  csS : Option Level
  rst : Option Level
  pwr : Option Level
deriving DecidableEq, Repr

/-- The tag of a byte on `SBUS` (R37). -/
inductive Tag where
  | cmd
  | data
deriving DecidableEq, Repr, Inhabited

/-- An event of the interface trace (R39). -/
inductive Event where
  /-- The block drove a pin. -/
  | setPin (p : Pin) (l : Level)
  /-- One byte on `SBUS`. -/
  | byte (t : Tag) (b : Byte)
  /-- A delay of that many milliseconds was requested. -/
  | delay (ms : Nat)
  /-- `BUSY` was read and showed that level. -/
  | sampleBusy (l : Level)
deriving DecidableEq, Repr

/-- The nine micro-operations (R112 to R120). -/
inductive MicroOp where
  | setPin (p : Pin) (l : Level)
  | cmd (b : Byte)
  | param (b : Byte)
  | pixData (b : Byte)
  | delay (ms : Nat)
  | setLife (l : Life)
  | setFrame (f : Option Panel)
  | incLine
  | waitBusy
deriving DecidableEq, Repr

/-- Why a step stops for good. -/
inductive Fault where
  /-- The sticky fault register is set, so no micro step and no host step is enabled (R124). Raised by `step` and by every
  operation presented in that state. Safe: it is the spec's own quiescent state, and the code is the register's. -/
  | halted (code : FaultCode)
deriving DecidableEq, Repr

/-- Why an operation is given no meaning. -/
inductive Refusal where
  /-- The operation of that mnemonic has no meaning yet. No arm of `exec` answers it. Safe. -/
  | notModelled (mnemonic : String)
  /-- An operation was presented while the micro-program of another still runs. The source calls that undefined, and the
  host has no step there (R110, R262, U4). Raised by every operation, never by `step`. Safe. -/
  | hostStepWhileBusy
deriving DecidableEq, Repr

/-- The state record (R20): seven fields of the block, and after them two of the model's own that stand for the host and
for the busy oracle (log entries 2 and 3). -/
structure State where
  /-- The lifecycle register (R21). -/
  life : Life
  /-- The open data frame (R22). -/
  frame : Option Panel
  /-- The line counter (R23). -/
  lines : Nat
  /-- The micro-program, the block's program counter (R24). -/
  prog : List MicroOp
  /-- The sticky fault register (R25). -/
  fault : Option FaultCode
  /-- The output pin latches (R26). -/
  pin : Pins
  /-- The interface trace, oldest first (R39). -/
  trace : List Event
  /-- MODEL'S OWN: the host operations still to be issued, next first (the host program of R125). -/
  hostOps : List HostOp
  /-- MODEL'S OWN: how many busy levels have been drawn (R120, R127). -/
  draws : Nat
deriving DecidableEq, Repr

/-- The pin latches of a clean start: both chip selects driven inactive (R261), `RST` and `PWR` not driven, as in the
vectors' clean start (section 0 of 95_test_vectors.md; log entry 7). -/
def Pins.cleanStart : Pins :=
  { csM := some Config.csInactive, csS := some Config.csInactive, rst := none, pwr := none }

/-- The block right after a block reset (R42, R260), under the clean-entry premise (R261), with no operation waiting. -/
def State.reset : State :=
  { life := .uninitialized
    frame := none
    lines := 0
    prog := []
    fault := none
    pin := Pins.cleanStart
    trace := []
    hostOps := []
    draws := 0 }

end Sys2Proof.Machine
end

