-- ==== Sys2Proof/Machine/Ops.lean ====
section
/-! DEFINITION. The named operations over the state: the pin latches and their predicates (R26 to R28, R32), emitting an
event (R10), raising a fault (R231), issuing an operation (R123) and the block reset (R260). A fault is the block's only
exception: it saves nothing, takes no vector, and no operation returns from it (R234, R235). -/

namespace Sys2Proof.Machine

/-- `other(p)` (R32). -/
def otherPanel : Panel → Panel
  | .master => .slave
  | .slave => .master

/-- `csPin(p)` (R32). -/
def csPin : Panel → Pin
  | .master => .csM
  | .slave => .csS

/-- The latch of a pin. -/
def pinLatch (ps : Pins) : Pin → Option Level
  | .csM => ps.csM
  | .csS => ps.csS
  | .rst => ps.rst
  | .pwr => ps.pwr

/-- The latches with one pin driven to a level. -/
def drivePins (ps : Pins) (p : Pin) (l : Level) : Pins :=
  match p with
  | .csM => { ps with csM := some l }
  | .csS => { ps with csS := some l }
  | .rst => { ps with rst := some l }
  | .pwr => { ps with pwr := some l }

/-- `sel(p)`: the latch of the panel's chip select is at `CS_ACTIVE_LEVEL` (R27). -/
def selected (ps : Pins) (p : Panel) : Bool := pinLatch ps (csPin p) == some Config.csActive

/-- `nsel`: how many chip selects are asserted (R27). -/
def nsel (ps : Pins) : Nat :=
  (if selected ps .master then 1 else 0) + (if selected ps .slave then 1 else 0)

/-- `powered` (R28). -/
def powered (ps : Pins) : Bool := !Config.hasPowerPin || ps.pwr == some .high

/-- `emit(e)` (R10). -/
def emit (e : Event) (s : State) : State := { s with trace := s.trace ++ [e] }

/-- The state with a pin latch driven. -/
def drive (p : Pin) (l : Level) (s : State) : State := { s with pin := drivePins s.pin p l }

/-- `prog <- p` (R10). -/
def setProg (p : List MicroOp) (s : State) : State := { s with prog := p }

/-- `raise Fault(f)`: the register is set, the micro-program is emptied, nothing else changes (R231). -/
def raise (f : FaultCode) (s : State) : State := { s with fault := some f, prog := [] }

/-- The state after an idle block is given an operation (R123): the admission fault is raised, or the expansion becomes
the micro-program. -/
def issueState (admission : Option FaultCode) (prog : List MicroOp) (s : State) : State :=
  match admission with
  | some f => raise f s
  | none => setProg prog s

/-- The rest of the host step after decoding (R123). The step is enabled only when the block is idle (R110): in a faulted block
nothing is (R124), and while a micro-program runs the host has no move (R262). -/
def issue (admission : Option FaultCode) (prog : List MicroOp) (s : State) : Host.Outcome State Fault Refusal :=
  match s.fault with
  | some f => .fault (.halted f)
  | none =>
    match s.prog with
    | _ :: _ => .refused .hostStepWhileBusy
    | [] => .next (issueState admission prog s)

/-! ### Admission (R140) -/

/-- The `frame` column of the admission table. -/
inductive FrameNeed where
  /-- No frame may be open, else `FrameOpen`. -/
  | closed
  /-- No frame may be open, and the row names no fault for one (log entry 8). -/
  | closedUnnamed
  /-- The frame of that panel must be open. -/
  | openFor (p : Panel)
deriving DecidableEq, Repr

/-- A row of the admission table, less its further checks. -/
structure AdmitRow where
  needsPower : Bool
  lives : List Life
  frame : FrameNeed
deriving DecidableEq, Repr

/-- The fault of the frame column (R140, R233). Where the row names none it is `IllegalState`, the one admission fault that
`SLEEP`, `POWER_ON` and `POWER_OFF` list (R147 to R149; log entry 8). -/
def frameFault (need : FrameNeed) (frame : Option Panel) : Option FaultCode :=
  match need, frame with
  | .closed, none => none
  | .closed, some _ => some .frameOpen
  | .closedUnnamed, none => none
  | .closedUnnamed, some _ => some .illegalState
  | .openFor _, none => some .frameNotOpen
  | .openFor p, some q => if q = p then none else some .panelMismatch

/-- The columns of the admission table from left to right, the first fault that applies (R140). -/
def admitRow (r : AdmitRow) (s : State) : Option FaultCode :=
  if r.needsPower && !powered s.pin then some .notPowered
  else if s.life ∈ r.lives then frameFault r.frame s.frame
  else some .illegalState

/-- A further check: a fault where the condition holds. -/
def faultIf (cond : Bool) (f : FaultCode) : Option FaultCode := if cond then some f else none

/-! ### Block reset (R260) -/

/-- A block reset with the pin latches the launch gives. It is no step of the block: it starts a run (log entry 11). It
emits no event, drives no pin, and is the only thing that clears the fault register. The host's operations and the oracle
are outside the block, so they stay. -/
def blockReset (launch : Pins) (s : State) : State :=
  { s with
    life := .uninitialized
    frame := none
    lines := 0
    prog := []
    fault := none
    pin := launch
    trace := [] }

end Sys2Proof.Machine
end

