-- ==== Sys2Proof/Machine/Sequencer.lean ====
section
/-! DEFINITION. The micro-sequencer: the nine micro-operations (R112 to R120), the micro step (R111), and the pieces every
operation's micro-program is built from (R121, R122). Each micro-op's meaning acts on the state whose micro-program is
already the rest, so a fault empties it and everything else leaves it. -/

namespace Sys2Proof.Machine

/-- `SETPIN(p, l)` (R112). -/
def microSetPin (p : Pin) (l : Level) (s : State) : State := emit (.setPin p l) (drive p l s)

/-- `CMD(b)` (R113). -/
def microCmd (b : Byte) (s : State) : State :=
  if nsel s.pin = 0 then raise .noTarget s else emit (.byte .cmd b) s

/-- `PARAM(b)` (R114). -/
def microParam (b : Byte) (s : State) : State :=
  if nsel s.pin = 0 then raise .noTarget s else emit (.byte .data b) s

/-- The condition of `PIXDATA`: a frame is open and exactly its panel's chip select is asserted (R115). -/
def pixelAllowed (frame : Option Panel) (ps : Pins) : Bool :=
  match frame with
  | none => false
  | some p => nsel ps == 1 && selected ps p

/-- `PIXDATA(b)` (R115). -/
def microPixData (b : Byte) (s : State) : State :=
  if pixelAllowed s.frame s.pin then emit (.byte .data b) s else raise .csConflict s

/-- `DELAY(n)` (R116). -/
def microDelay (ms : Nat) (s : State) : State := emit (.delay ms) s

/-- `SETLIFE(l)` (R117). -/
def microSetLife (l : Life) (s : State) : State := { s with life := l }

/-- `SETFRAME(f)` (R118). -/
def microSetFrame (f : Option Panel) (s : State) : State := { s with frame := f, lines := 0 }

/-- `INCLINE` (R119). -/
def microIncLine (s : State) : State := { s with lines := s.lines + 1 }

/-- `WAITBUSY` with the drawn level `l` and the rest of the micro-program (R120): on a busy sample it asks for the poll delay
and stays at the head; otherwise it asks for the settle delay and leaves. -/
def microWaitBusy (l : Level) (rest : List MicroOp) (s : State) : State :=
  let sampled := emit (.sampleBusy l) { s with draws := s.draws + 1 }
  if l = Config.busyActive then setProg (.waitBusy :: rest) (emit (.delay Config.tPollMs) sampled)
  else setProg rest (emit (.delay Config.tSettleMs) sampled)

/-- One micro step: the head micro-op `m` runs, and the micro-program becomes `rest` (R111). `l` is the level that the busy
input would show at this moment; only `WAITBUSY` looks at it. -/
def microStep (l : Level) (m : MicroOp) (rest : List MicroOp) (s : State) : State :=
  match m with
  | .setPin p v => microSetPin p v (setProg rest s)
  | .cmd b => microCmd b (setProg rest s)
  | .param b => microParam b (setProg rest s)
  | .pixData b => microPixData b (setProg rest s)
  | .delay ms => microDelay ms (setProg rest s)
  | .setLife v => microSetLife v (setProg rest s)
  | .setFrame f => microSetFrame f (setProg rest s)
  | .incLine => microIncLine (setProg rest s)
  | .waitBusy => microWaitBusy l rest s

/-! ### Building blocks (R121, R122) -/

/-- The chip selects a target asserts, Master's first (R121). -/
def targetPins : Target → List Pin
  | .master => [.csM]
  | .slave => [.csS]
  | .both => [.csM, .csS]

/-- `select(t)`. -/
def selectProg (t : Target) : List MicroOp := (targetPins t).map fun p => .setPin p Config.csActive

/-- `deselect(t)`. -/
def deselectProg (t : Target) : List MicroOp := (targetPins t).map fun p => .setPin p Config.csInactive

/-- `cmdFrame(t, c, ps)`. -/
def cmdFrame (t : Target) (c : Byte) (ps : List Byte) : List MicroOp :=
  selectProg t ++ [.cmd c] ++ ps.map .param ++ deselectProg t

/-- `refreshProg`: a busy wait after the power-on frame and after the data-refresh frame, none after the power-off frame. -/
def refreshProg : List MicroOp :=
  [.setLife .refreshing]
    ++ cmdFrame .both Config.cmdPon Config.ponPayload ++ [.waitBusy]
    ++ cmdFrame .both Config.cmdDrf Config.drfPayload ++ [.waitBusy]
    ++ cmdFrame .both Config.cmdPof Config.pofPayload
    ++ [.setLife .ready]

end Sys2Proof.Machine
end

