-- ==== Sys2Proof/Machine/Framer.lean ====
section
/-! DEFINITION. The line-streaming framer: BEGIN_FRAME, WRITE_LINE and END_FRAME (R170 to R176). -/

namespace Sys2Proof.Machine

/-! ### BEGIN_FRAME (R170, R171) -/

/-- A Slave frame deselects the Master first; a Master frame emits no deselect. -/
def beginProg (p : Panel) : List MicroOp :=
  [.setLife .streaming, .setFrame (some p)]
    ++ (match p with
        | .master => []
        | .slave => [.setPin .csM Config.csInactive])
    ++ [.setPin (csPin p) Config.csActive, .cmd Config.cmdDtm]

def admitBeginFrame (s : State) : Option FaultCode :=
  admitRow { needsPower := false, lives := [.ready, .streaming], frame := .closed } s

def execBeginFrame (p : Panel) (s : State) : Host.Outcome State Fault Refusal :=
  issue (admitBeginFrame s) (beginProg p) s

/-! ### WRITE_LINE (R172 to R175) -/

/-- The bytes of a line in index order, then the line count. -/
def lineProg (bs : List Byte) : List MicroOp := bs.map .pixData ++ [.incLine]

/-- The further checks in their order: length, overflow, colour codes. -/
def lineFault (bs : List Byte) (lines : Nat) : Option FaultCode :=
  ((faultIf (bs.length != Config.lineBytes) .badLineLength).or
    (faultIf (lines == Config.panelH) .frameOverflow)).or
    (faultIf (!bs.all validByte) .badColorCode)

/-- An empty line is admitted in every state; another goes through the table and then the further checks. -/
def admitWriteLine (p : Panel) (bs : List Byte) (s : State) : Option FaultCode :=
  if bs.isEmpty then none
  else
    (admitRow { needsPower := false, lives := [.streaming], frame := .openFor p } s).or (lineFault bs s.lines)

/-- An empty line expands to nothing. -/
def writeLineProg (bs : List Byte) : List MicroOp := if bs.isEmpty then [] else lineProg bs

def execWriteLine (p : Panel) (bs : List Byte) (s : State) : Host.Outcome State Fault Refusal :=
  issue (admitWriteLine p bs s) (writeLineProg bs) s

/-! ### END_FRAME (R176) -/

def endProg (p : Panel) : List MicroOp := [.setPin (csPin p) Config.csInactive, .setFrame none]

def admitEndFrame (p : Panel) (s : State) : Option FaultCode :=
  (admitRow { needsPower := false, lives := [.streaming], frame := .openFor p } s).or
    (faultIf (s.lines != Config.panelH) .incompleteFrame)

def execEndFrame (p : Panel) (s : State) : Host.Outcome State Fault Refusal :=
  issue (admitEndFrame p s) (endProg p) s

end Sys2Proof.Machine
end

