-- ==== Sys2Proof/Machine/Compositor.lean ====
section
/-! DEFINITION. The compositor's operations over the framer's building blocks: CLEAR and STREAM_IMAGE (R212, R213). -/

namespace Sys2Proof.Machine

/-! ### CLEAR (R212) -/

/-- One row of `CLEAR c`: 300 equal bytes, the line count, the row yield. -/
def clearRow (c : PixelColor) : List MicroOp :=
  List.replicate Config.lineBytes (.pixData (fill c)) ++ [.incLine, .delay Config.rowYieldMs]

/-- The frame of one half. -/
def clearHalf (c : PixelColor) (p : Panel) : List MicroOp :=
  beginProg p ++ (List.replicate Config.panelH (clearRow c)).flatten ++ endProg p

/-- Master's half, then Slave's, then the refresh. -/
def clearProg (c : PixelColor) : List MicroOp := clearHalf c .master ++ clearHalf c .slave ++ refreshProg

def admitClear (s : State) : Option FaultCode :=
  admitRow { needsPower := false, lives := [.ready, .streaming], frame := .closed } s

def execClear (c : PixelColor) (s : State) : Host.Outcome State Fault Refusal :=
  issue (admitClear s) (clearProg c) s

/-! ### STREAM_IMAGE (R213) -/

/-- The frame of one half: its packed half-rows, top to bottom. -/
def streamHalf (img : Image) (p : Panel) : List MicroOp :=
  beginProg p ++ (imageLines img p).flatMap lineProg ++ endProg p

/-- All of Master's rows, then all of Slave's, then the refresh. -/
def streamProg (img : Image) : List MicroOp := streamHalf img .master ++ streamHalf img .slave ++ refreshProg

def admitStreamImage (s : State) : Option FaultCode :=
  admitRow { needsPower := false, lives := [.ready, .streaming], frame := .closed } s

def execStreamImage (img : Image) (s : State) : Host.Outcome State Fault Refusal :=
  issue (admitStreamImage s) (streamProg img) s

end Sys2Proof.Machine
end

