-- ==== Sys2Proof/Machine/Lifecycle.lean ====
section
/-! DEFINITION. The controller lifecycle operations: RESET, INITIALIZE, REFRESH_NOW, SLEEP, POWER_ON and POWER_OFF (R141 to
R149), each with its row of the admission table (R140). -/

namespace Sys2Proof.Machine

/-! ### RESET (R141, R142) -/

/-- One level of the reset pattern and the delay after it. -/
def resetPulse (l : Level) (ms : Nat) : List MicroOp := [.setPin .rst l, .delay ms]

/-- The double pulse: assert, deassert, assert, deassert a second time, assert. -/
def resetProg : List MicroOp :=
  [.setLife .resetting]
    ++ resetPulse Config.rstAssert Config.rstDelayMs[0]
    ++ resetPulse Config.rstDeassert Config.rstDelayMs[1]
    ++ resetPulse Config.rstAssert Config.rstDelayMs[2]
    ++ resetPulse Config.rstDeassert Config.rstDelayMs[3]
    ++ resetPulse Config.rstAssert Config.rstDelayMs[4]

def admitReset (s : State) : Option FaultCode :=
  admitRow
    { needsPower := true
      lives := [.uninitialized, .resetting, .configuring, .ready, .streaming, .refreshing, .sleeping]
      frame := .closed } s

def execReset (s : State) : Host.Outcome State Fault Refusal := issue (admitReset s) resetProg s

/-! ### INITIALIZE (R143, R144) -/

/-- The command frame of one entry of `INIT_SEQ`. -/
def initFrame (e : Config.InitEntry) : List MicroOp := cmdFrame e.target e.cmd e.payload

/-- Every entry in list order, with no wait and no delay between. -/
def initializeProg : List MicroOp :=
  [.setLife .configuring] ++ Config.initSeq.flatMap initFrame ++ [.setLife .ready]

def admitInitialize (s : State) : Option FaultCode :=
  admitRow { needsPower := false, lives := [.resetting], frame := .closed } s

def execInitialize (s : State) : Host.Outcome State Fault Refusal := issue (admitInitialize s) initializeProg s

/-! ### REFRESH_NOW (R145, R146) -/

def admitRefreshNow (s : State) : Option FaultCode :=
  admitRow { needsPower := false, lives := [.ready, .streaming], frame := .closed } s

def execRefreshNow (s : State) : Host.Outcome State Fault Refusal := issue (admitRefreshNow s) refreshProg s

/-! ### SLEEP (R147) -/

/-- The deep-sleep frame to both controllers, then the settle delay, then the lifecycle state. -/
def sleepProg : List MicroOp :=
  cmdFrame .both Config.cmdDslp [Config.dslpMagic] ++ [.delay Config.tSleepMs, .setLife .sleeping]

def admitSleep (s : State) : Option FaultCode :=
  admitRow { needsPower := false, lives := [.ready], frame := .closedUnnamed } s

def execSleep (s : State) : Host.Outcome State Fault Refusal := issue (admitSleep s) sleepProg s

/-! ### POWER_ON (R148) -/

def powerOnProg : List MicroOp :=
  if Config.hasPowerPin then [.setPin .pwr .high, .delay Config.tPwrMs, .setLife .uninitialized]
  else [.setLife .uninitialized]

def admitPowerOn (s : State) : Option FaultCode :=
  admitRow { needsPower := false, lives := [.uninitialized, .poweredOff], frame := .closedUnnamed } s

def execPowerOn (s : State) : Host.Outcome State Fault Refusal := issue (admitPowerOn s) powerOnProg s

/-! ### POWER_OFF (R149) -/

/-- The power pin goes low only after the whole sleep program. -/
def powerOffProg : List MicroOp :=
  sleepProg ++ (if Config.hasPowerPin then [.setPin .pwr .low, .setLife .poweredOff] else [])

def admitPowerOff (s : State) : Option FaultCode :=
  admitRow { needsPower := false, lives := [.ready, .sleeping], frame := .closedUnnamed } s

def execPowerOff (s : State) : Host.Outcome State Fault Refusal := issue (admitPowerOff s) powerOffProg s

end Sys2Proof.Machine
end

