-- ==== Sys2Proof/Machine/Dispatch.lean ====
section
/-! DEFINITION. One arm per host operation: the host step of R123 after decoding. -/

namespace Sys2Proof.Machine

def exec (i : Instr) (s : State) : Host.Outcome State Fault Refusal :=
  match i with
  | .reset => Sys2Proof.Machine.execReset s
  | .initialise => Sys2Proof.Machine.execInitialize s
  | .clear c => Sys2Proof.Machine.execClear c s
  | .beginFrame p => Sys2Proof.Machine.execBeginFrame p s
  | .writeLine p bs => Sys2Proof.Machine.execWriteLine p bs s
  | .endFrame p => Sys2Proof.Machine.execEndFrame p s
  | .refreshNow => Sys2Proof.Machine.execRefreshNow s
  | .sleep => Sys2Proof.Machine.execSleep s
  | .powerOn => Sys2Proof.Machine.execPowerOn s
  | .powerOff => Sys2Proof.Machine.execPowerOff s
  | .streamImage img => Sys2Proof.Machine.execStreamImage img s

end Sys2Proof.Machine
end

