-- ==== Sys2Proof/Machine/Run.lean ====
section
/-! DEFINITION. The step relation of R110 as a function, for any oracle of busy levels, and runs of it (R127). -/

namespace Sys2Proof.Machine

/-- The host step (R123): decode, then the operation; a decode fault is raised before anything else (R232). -/
def hostStep (op : HostOp) (s : State) : Host.Outcome State Fault Refusal :=
  match decode op.word op.operand with
  | .error f => .next (raise f s)
  | .ok i => exec i s

/-- The idle block with the host's next operation taken from the host program; where the host has issued all of it, the
block waits and nothing changes (R125, R260; log entries 3 and 4). -/
def idleStep (s : State) : Host.Outcome State Fault Refusal :=
  match s.hostOps with
  | [] => .next s
  | op :: more => hostStep op { s with hostOps := more }

/-- One step with the busy levels of an oracle `draw` (R110): none when faulted, a micro step when busy, a host step when
idle. -/
def stepWith (draw : Nat → Level) (s : State) : Host.Outcome State Fault Refusal :=
  match s.fault with
  | some f => .fault (.halted f)
  | none =>
    match s.prog with
    | m :: rest => .next (microStep (draw s.draws) m rest s)
    | [] => idleStep s

/-- `n` steps with one oracle, up to the first stop. -/
def runWith (draw : Nat → Level) : Nat → State → Host.Outcome State Fault Refusal
  | 0, s => .next s
  | n + 1, s =>
    match stepWith draw s with
    | .next t => runWith draw n t
    | .fault f => .fault f
    | .refused r => .refused r

end Sys2Proof.Machine
end

