-- ==== Sys2Proof/Machine/Step.lean ====
section
/-! DEFINITION. The step of the machine: the step relation with the busy levels of the configuration's oracle, and the
placing of a bare opcode-table word as the host's next operation. -/

namespace Sys2Proof.Machine

/-- One step (R110). -/
def step (s : State) : Host.Outcome State Fault Refusal := stepWith Config.busyDraw s

/-- `s` with a table word as the next host operation and the block idle, which is what a host step needs (R123). There is
no instruction memory: this stands for the host presenting the operation (log entries 3 and 10). -/
def State.withFetchWord (s : State) (_nbits w : Nat) : State :=
  { s with hostOps := tableHostOp w :: s.hostOps, prog := [], fault := none }

end Sys2Proof.Machine
end

