-- ==== Sys2Proof/Machine/Framing.lean ====
section
/-! DEFINITION. The bus framing as the wire sees it: the event sequences of a command frame (R88), of a pixel-data frame
(R89), of the reset pattern (R141), of a busy wait (R120) and of a refresh (R145). They are written from those rules and not
from the micro-programs, so that "the micro-program emits its framing" can be stated. -/

namespace Sys2Proof.Machine

/-- The pin writes that select a target, Master first (R88, R121). -/
def selectEvents : Target → List Event
  | .master => [.setPin .csM Config.csActive]
  | .slave => [.setPin .csS Config.csActive]
  | .both => [.setPin .csM Config.csActive, .setPin .csS Config.csActive]

/-- The pin writes that deselect a target, Master first (R88, R121). -/
def deselectEvents : Target → List Event
  | .master => [.setPin .csM Config.csInactive]
  | .slave => [.setPin .csS Config.csInactive]
  | .both => [.setPin .csM Config.csInactive, .setPin .csS Config.csInactive]

/-- A command frame: select, one command byte, its payload bytes, deselect (R88). -/
def commandFrameEvents (t : Target) (c : Byte) (ps : List Byte) : List Event :=
  selectEvents t ++ .byte .cmd c :: ps.map (.byte .data) ++ deselectEvents t

/-- The opening of a pixel-data frame (R89, R170). -/
def frameOpenEvents : Panel → List Event
  | .master => [.setPin .csM Config.csActive, .byte .cmd Config.cmdDtm]
  | .slave => [.setPin .csM Config.csInactive, .setPin .csS Config.csActive, .byte .cmd Config.cmdDtm]

/-- The closing of a pixel-data frame (R89, R176). -/
def frameCloseEvents : Panel → List Event
  | .master => [.setPin .csM Config.csInactive]
  | .slave => [.setPin .csS Config.csInactive]

/-- One line of a frame: its bytes, and for `CLEAR` the row yield (R89). -/
def lineEvents (yields : Bool) (bs : List Byte) : List Event :=
  bs.map (.byte .data) ++ if yields then [.delay Config.rowYieldMs] else []

/-- A pixel-data frame of one half (R89). -/
def pixelFrameEvents (p : Panel) (yields : Bool) (lines : List (List Byte)) : List Event :=
  frameOpenEvents p ++ lines.flatMap (lineEvents yields) ++ frameCloseEvents p

/-- The five levels of the reset pattern, each with its delay (R141). -/
def resetEvents : List Event :=
  [.setPin .rst Config.rstAssert, .delay Config.rstDelayMs[0],
   .setPin .rst Config.rstDeassert, .delay Config.rstDelayMs[1],
   .setPin .rst Config.rstAssert, .delay Config.rstDelayMs[2],
   .setPin .rst Config.rstDeassert, .delay Config.rstDelayMs[3],
   .setPin .rst Config.rstAssert, .delay Config.rstDelayMs[4]]

/-- `k` busy samples, each followed by the poll delay. -/
def pollEvents : Nat → List Event
  | 0 => []
  | k + 1 => .sampleBusy Config.busyActive :: .delay Config.tPollMs :: pollEvents k

/-- A busy wait that draws `k` busy levels and then one that is not busy (R120). -/
def busyWaitEvents (k : Nat) : List Event :=
  pollEvents k ++ [.sampleBusy Config.busyActive.other, .delay Config.tSettleMs]

/-- A refresh whose two busy waits draw `k1` and `k2` busy levels (R145, R146). -/
def refreshEvents (k1 k2 : Nat) : List Event :=
  commandFrameEvents .both Config.cmdPon Config.ponPayload ++ busyWaitEvents k1
    ++ commandFrameEvents .both Config.cmdDrf Config.drfPayload ++ busyWaitEvents k2
    ++ commandFrameEvents .both Config.cmdPof Config.pofPayload

/-- The deep-sleep frame and its settle delay (R147). -/
def sleepEvents : List Event :=
  commandFrameEvents .both Config.cmdDslp [Config.dslpMagic] ++ [.delay Config.tSleepMs]

/-- The events of one micro-op that raises no fault, where the busy input shows `l` (R112 to R120). -/
def microEvents (l : Level) : MicroOp → List Event
  | .setPin p v => [.setPin p v]
  | .cmd b => [.byte .cmd b]
  | .param b => [.byte .data b]
  | .pixData b => [.byte .data b]
  | .delay ms => [.delay ms]
  | .setLife _ => []
  | .setFrame _ => []
  | .incLine => []
  | .waitBusy => [.sampleBusy l, .delay (if l = Config.busyActive then Config.tPollMs else Config.tSettleMs)]

/-- What the pin latches are after the pin writes of a trace. -/
def replayPins : Pins → List Event → Pins
  | ps, [] => ps
  | ps, .setPin p l :: es => replayPins (drivePins ps p l) es
  | ps, .byte _ _ :: es => replayPins ps es
  | ps, .delay _ :: es => replayPins ps es
  | ps, .sampleBusy _ :: es => replayPins ps es

end Sys2Proof.Machine
end

