-- ==== Sys2Proof/Machine/Public.lean ====
section
/-! DEFINITION. The public call surface and its expansions (R94), the assembler syntax (R93), and the host triad that
streams an image by hand (R214). -/

namespace Sys2Proof.Machine

/-- The source's public calls (R94). The splash renderer is out of scope, so its image is given (R6). -/
inductive PublicCall where
  | init
  | clear (c : PixelColor)
  | showBootSplash (splash : Image)
  | sleep
  | powerOn
  | powerOff
  | beginFrame (p : Panel)
  | writeLine (p : Panel) (bs : List Byte)
  | endFrame (p : Panel)
deriving DecidableEq, Repr

/-- The expansion of a public call into host operations (R94). -/
def publicExpansion : PublicCall → List Instr
  | .init => [.reset, .initialise]
  | .clear c => [.clear c]
  | .showBootSplash splash => [.streamImage splash]
  | .sleep => [.sleep]
  | .powerOn => [.powerOn]
  | .powerOff => [.powerOff]
  | .beginFrame p => [.beginFrame p]
  | .writeLine p bs => [.writeLine p bs]
  | .endFrame p => [.endFrame p]

/-- The host program that streams one half by hand (R214). -/
def triadHalf (img : Image) (p : Panel) : List Instr :=
  .beginFrame p :: (imageLines img p).map (.writeLine p) ++ [.endFrame p]

/-- The host program that does by hand what `STREAM_IMAGE` does (R214). -/
def triadProgram (img : Image) : List Instr :=
  triadHalf img .master ++ triadHalf img .slave ++ [.refreshNow]

/-- A host program as the operations presented on `HOST_OP`. -/
def hostProgram (is : List Instr) : List HostOp := is.map encode

/-- A panel as the assembler writes it (R93). -/
def panelText : Panel → String
  | .master => "Master"
  | .slave => "Slave"

/-- A colour as the assembler writes it (R93). -/
def colorText : PixelColor → String
  | .black => "Black"
  | .white => "White"
  | .yellow => "Yellow"
  | .red => "Red"
  | .blue => "Blue"
  | .green => "Green"

/-- A byte list as the assembler writes it: R93's bracketed form. DESIGN CHOICE (log entry 18): R93 gives no radix for a byte,
and each is written in decimal; nor does the printer ever use R93's other form, `fill(n, b)`. -/
def bytesText (bs : List Byte) : String :=
  "[" ++ ", ".intercalate (bs.map fun b => toString b.toNat) ++ "]"

/-- An operation in the assembler's syntax; an image is written by the name it is given (R93). For the bytes of a list see
`bytesText`. -/
def asmText (imageName : String) : Instr → String
  | .reset => "RESET"
  | .initialise => "INITIALIZE"
  | .clear c => "CLEAR " ++ colorText c
  | .beginFrame p => "BEGIN_FRAME " ++ panelText p
  | .writeLine p bs => "WRITE_LINE " ++ panelText p ++ ", " ++ bytesText bs
  | .endFrame p => "END_FRAME " ++ panelText p
  | .refreshNow => "REFRESH_NOW"
  | .sleep => "SLEEP"
  | .powerOn => "POWER_ON"
  | .powerOff => "POWER_OFF"
  | .streamImage _ => "STREAM_IMAGE " ++ imageName

end Sys2Proof.Machine
end

