-- ==== Sys2Proof/Machine/Expand.lean ====
section
/-! DEFINITION. The admission check and the expansion of R123 as functions of the operation, over the definitions each
operation's own file gives. -/

namespace Sys2Proof.Machine

/-- The admission check of R123: the fault the admission table and the further checks give, if any (R140, R172, R173). -/
def admission (i : Instr) (s : State) : Option FaultCode :=
  match i with
  | .reset => admitReset s
  | .initialise => admitInitialize s
  | .clear _ => admitClear s
  | .beginFrame _ => admitBeginFrame s
  | .writeLine p bs => admitWriteLine p bs s
  | .endFrame p => admitEndFrame p s
  | .refreshNow => admitRefreshNow s
  | .sleep => admitSleep s
  | .powerOn => admitPowerOn s
  | .powerOff => admitPowerOff s
  | .streamImage _ => admitStreamImage s

/-- `expand(op, st)`: the micro-program. No operation's expansion reads the state (R71, R123). -/
def expand : Instr → List MicroOp
  | .reset => resetProg
  | .initialise => initializeProg
  | .clear c => clearProg c
  | .beginFrame p => beginProg p
  | .writeLine _ bs => writeLineProg bs
  | .endFrame p => endProg p
  | .refreshNow => refreshProg
  | .sleep => sleepProg
  | .powerOn => powerOnProg
  | .powerOff => powerOffProg
  | .streamImage img => streamProg img

end Sys2Proof.Machine
end

