-- ==== Sys2Proof/Machine/Flags.lean ====
section
/-! DEFINITION. What the block shows of its status, and the codes of its registers. The block has no condition codes and no
status flag but the fault register (R30), so no operation computes a flag. The ports are R35's, the codes those of R21, R22
and R230, and the wire's view of a byte is R37's and R63's. -/

namespace Sys2Proof.Machine

/-- The 3-bit code of a lifecycle state (R21). -/
def lifeCode : Life → BitVec 3
  | .uninitialized => 0
  | .resetting => 1
  | .configuring => 2
  | .ready => 3
  | .streaming => 4
  | .refreshing => 5
  | .sleeping => 6
  | .poweredOff => 7

/-- The 2-bit code of the open-frame register; 3 is never held (R22). -/
def frameCode : Option Panel → BitVec 2
  | none => 0
  | some .master => 1
  | some .slave => 2

/-- The code of a fault (R230); 0 means none and 15 is unused. -/
def faultCode : FaultCode → BitVec 4
  | .illegalOp => 1
  | .badPanel => 2
  | .badColor => 3
  | .illegalState => 4
  | .frameOpen => 5
  | .frameNotOpen => 6
  | .panelMismatch => 7
  | .badLineLength => 8
  | .frameOverflow => 9
  | .incompleteFrame => 10
  | .badColorCode => 11
  | .notPowered => 12
  | .noTarget => 13
  | .csConflict => 14

/-- The `FAULT` port (R35). -/
def faultPort (s : State) : BitVec 4 :=
  match s.fault with
  | none => 0
  | some f => faultCode f

/-- The `IDLE` port: no micro-op is left and no fault is set (R35). -/
def idlePort (s : State) : Bool := s.prog.isEmpty && s.fault.isNone

/-- The bits of a byte in the order `WIRE_BIT_ORDER` puts them on the serial wire, first bit first (R63). -/
def wireBits (b : Byte) : List Bool :=
  match Config.wireBitOrder with
  | .msbFirst => (List.range 8).map fun i => b.getLsbD (7 - i)
  | .lsbFirst => (List.range 8).map fun i => b.getLsbD i

/-- With `Positional` the tags of the bytes sent after one chip-select assertion follow from their places: the first is the
command, the rest are data (R37). -/
def positionalTags (n : Nat) : List Tag :=
  match n with
  | 0 => []
  | k + 1 => .cmd :: List.replicate k .data

end Sys2Proof.Machine
end

