-- ==== Sys2Proof/Safety.lean ====
section
/-! DEFINITION. What the claims call an idle block, a final run and a clean start (R110, R125, R261), the idle invariant
(R41), and the invariants of every step that are built on it. -/

namespace Sys2Proof.Machine

/-- Idle: no micro-op is left and no fault is set (R110). -/
abbrev State.Idle (s : State) : Prop := s.prog = [] ∧ s.fault = none

/-- Final: every operation has been issued and the block is idle (R125). -/
abbrev State.Final (s : State) : Prop := s.hostOps = [] ∧ s.Idle

/-- A run of some number of steps with that oracle leads from `s` to `t`. -/
def Reaches (draw : Nat → Level) (s t : State) : Prop := ∃ n, runWith draw n s = .next t

/-- The state with an operation offered by the host, and `more` after it. -/
def State.offered (s : State) (i : Instr) (more : List HostOp) : State := { s with hostOps := encode i :: more }

/-- From draw number `first` on, `k` draws are busy and the next one is not (R120). -/
def BusyFor (draw : Nat → Level) (first k : Nat) : Prop :=
  (∀ j, j < k → draw (first + j) = Config.busyActive) ∧ draw (first + k) ≠ Config.busyActive

/-- The fairness premise: at every point, some later draw is not busy (R273). -/
def Fair (draw : Nat → Level) : Prop := ∀ n, ∃ m, n ≤ m ∧ draw m ≠ Config.busyActive

/-- Both chip-select latches are driven inactive (R261). -/
abbrev Pins.BothInactive (ps : Pins) : Prop := ps.csM = some Config.csInactive ∧ ps.csS = some Config.csInactive

/-- The clean-entry premise on the latches a launch gives (R261). `poweredAtLaunch` is the launch's own statement that power
has been on for at least `T_PWR_MS`. -/
def Pins.CleanEntry (poweredAtLaunch : Prop) (ps : Pins) : Prop :=
  ps.BothInactive ∧ (Config.hasPowerPin = true → ps.pwr = none ∨ ps.pwr = some .low ∨ poweredAtLaunch)

/-- What the micro-ops read and write besides the trace. -/
structure Shadow where
  life : Life
  frame : Option Panel
  lines : Nat
  pin : Pins
deriving DecidableEq, Repr

/-- The shadow of a state. -/
def shadowOf (s : State) : Shadow := { life := s.life, frame := s.frame, lines := s.lines, pin := s.pin }

/-- The idle invariant (R41), with the bound of the line counter (R23) and the lifecycle states an idle block is never in
(R140). -/
def Shadow.Quiet (h : Shadow) : Prop :=
  (h.frame = none → selected h.pin .master = false ∧ selected h.pin .slave = false) ∧
  (∀ p, h.frame = some p →
    selected h.pin p = true ∧ selected h.pin (otherPanel p) = false ∧ h.life = .streaming) ∧
  h.lines ≤ 1600 ∧ h.life ≠ .configuring ∧ h.life ≠ .refreshing

/-- The shadow after a micro-op that raises no fault and keeps the line counter in its range; none otherwise. -/
def dryOp (m : MicroOp) (h : Shadow) : Option Shadow :=
  match m with
  | .setPin p l => some { h with pin := drivePins h.pin p l }
  | .cmd _ => if nsel h.pin = 0 then none else some h
  | .param _ => if nsel h.pin = 0 then none else some h
  | .pixData _ => if pixelAllowed h.frame h.pin then some h else none
  | .delay _ => some h
  | .setLife l => some { h with life := l }
  | .setFrame f => some { h with frame := f, lines := 0 }
  | .incLine => if h.lines < 1600 then some { h with lines := h.lines + 1 } else none
  | .waitBusy => some h

/-- The shadow after a micro-program. -/
def dryRun : List MicroOp → Shadow → Option Shadow
  | [], h => some h
  | m :: rest, h => (dryOp m h).bind (dryRun rest)

/-- The invariant behind R41 and R232: what is left of the micro-program raises no fault and ends in a quiet block, and a
fault that is set is none of the two a micro step raises. -/
def State.Disciplined (s : State) : Prop :=
  match s.fault with
  | some f => f ≠ .noTarget ∧ f ≠ .csConflict
  | none => ∃ h, dryRun s.prog (shadowOf s) = some h ∧ h.Quiet

/-- The command bytes of R90: the closed set of commands the block emits. -/
def busCommands : List Byte :=
  [Config.cmdDtm, Config.cmdPon, Config.cmdDrf, Config.cmdPof, Config.cmdDslp] ++ Config.initSeq.map (·.cmd)

/-- What is left of the micro-program sends only valid pixel bytes (R174) and only commands of the closed set (R92). -/
def State.SendsOnlyLegalBytes (s : State) : Prop :=
  (∀ b, MicroOp.pixData b ∈ s.prog → validByte b = true) ∧ (∀ b, MicroOp.cmd b ∈ s.prog → b ∈ busCommands)

end Sys2Proof.Machine
end

