-- ==== Sys2Proof/WellFormed.lean ====
section
/-! DEFINITION. The operand contract of an operation (R64, R174). The types of `Instr` already hold a panel, a colour and an
image to their shape, so what is left to check is a line's byte list. An operation that breaks the contract still decodes
and still runs: its issue raises the fault R173 names (log entry 12). -/

namespace Sys2Proof

/-- A line's length is 300, or 0 for the no-op (R64). -/
def lineLengthOk (bs : List Byte) : Bool := bs.length == 0 || bs.length == Config.lineBytes

/-- Every byte of a line holds two colour codes (R174, R192). -/
def lineBytesOk (bs : List Byte) : Bool := bs.all Machine.validByte

/-- The operand contract, operation by operation. -/
def Instr.wellFormed : Instr → Bool
  | .reset => true
  | .initialise => true
  | .clear _ => true
  | .beginFrame _ => true
  | .writeLine _ bs => lineLengthOk bs && lineBytesOk bs
  | .endFrame _ => true
  | .refreshNow => true
  | .sleep => true
  | .powerOn => true
  | .powerOff => true
  | .streamImage _ => true

end Sys2Proof
end

