-- ==== Sys2Proof/Certificates/Slice0/Obligations.lean ====
section
/-! DEFINITION. The statements for the provers. Each docstring names the rule or section of spec/ it comes from. Where a
clause is an inference the spec marks as derived, or a choice of the model's, the docstring says so. -/

open Sys2Proof Sys2Proof.Machine

/-! ### Encoding -/

/-- Section 2.1 of 95_test_vectors.md: words written out from the encoding, and what they decode to. -/
def Obligations.VectorWordsDecode : Prop :=
  decode 0x1000 .absent = .ok .reset ∧ decode 0x3500 .absent = .ok (.clear .green) ∧
  decode 0x4100 .absent = .ok (.beginFrame .slave) ∧ decode 0x5100 (.bytes []) = .ok (.writeLine .slave []) ∧
  decode 0x6000 .absent = .ok (.endFrame .master) ∧ decode 0x3601 .absent = .error .illegalOp ∧
  decode 0x3600 .absent = .error .badColor ∧ decode 0x4200 .absent = .error .badPanel ∧
  decode 0x5200 (.bytes []) = .error .badPanel ∧ decode 0x0500 (.bytes []) = .error .illegalOp ∧
  decode 0x1000 (.bytes [0x11]) = .error .illegalOp ∧ decode 0x5000 .absent = .error .illegalOp

/-- Decoding an encoded operation gives it back, for every operation with every operand. -/
def Obligations.DecodeOfEncode : Prop :=
  ∀ i : Instr, decode (encode i).word (encode i).operand = .ok i

/-- A word and operand that decode have one meaning: they are the encoding of the operation they decode to. -/
def Obligations.EncodeOfDecode : Prop :=
  ∀ (w : OpWord) (o : Operand) (i : Instr), decode w o = .ok i → encode i = { word := w, operand := o }

/-- R86: the reserved opcodes and any nonzero `RSV` decode to `IllegalOp`, whatever the operand and `ARG`. -/
def Obligations.ReservedEncodingsAreIllegal : Prop :=
  ∀ (op arg : BitVec 4) (rsv : BitVec 8) (o : Operand),
    op = 0x0 ∨ op = 0xC ∨ op = 0xD ∨ op = 0xE ∨ op = 0xF ∨ rsv ≠ 0 →
    decode (op ++ arg ++ rsv) o = .error .illegalOp

/-- Check 3 of R82: an operand of a kind the opcode map does not give for `OP` decodes to `IllegalOp`, whatever `ARG`. -/
def Obligations.WrongOperandKindIsIllegal : Prop :=
  ∀ (op arg : BitVec 4) (rsv : BitVec 8),
    (op = 0x5 ∨ op = 0xB → decode (op ++ arg ++ rsv) .absent = .error .illegalOp) ∧
    (op ≠ 0x5 → ∀ bs, decode (op ++ arg ++ rsv) (.bytes bs) = .error .illegalOp) ∧
    (op ≠ 0xB → ∀ img, decode (op ++ arg ++ rsv) (.image img) = .error .illegalOp)

/-- R83: the panel operand of `BEGIN_FRAME`, `WRITE_LINE` and `END_FRAME`. -/
def Obligations.PanelArgument : Prop :=
  ∀ (arg : BitVec 4) (bs : List Byte),
    let panel : Except FaultCode Panel :=
      if arg = 0 then .ok .master else if arg = 1 then .ok .slave else .error .badPanel
    decode (0x4#4 ++ arg ++ 0#8) .absent = panel.map .beginFrame ∧
    decode (0x5#4 ++ arg ++ 0#8) (.bytes bs) = panel.map (fun p => .writeLine p bs) ∧
    decode (0x6#4 ++ arg ++ 0#8) .absent = panel.map .endFrame

/-- R84: the colour operand of `CLEAR`, with R33's index. -/
def Obligations.ColourArgument : Prop :=
  (∀ c : PixelColor, decode (0x3#4 ++ BitVec.ofNat 4 c.index.val ++ 0#8) .absent = .ok (.clear c)) ∧
  (∀ arg : BitVec 4, 6 ≤ arg.toNat → decode (0x3#4 ++ arg ++ 0#8) .absent = .error .badColor) ∧
  [PixelColor.black, .white, .yellow, .red, .blue, .green].map (fun c => c.index.val) = [0, 1, 2, 3, 4, 5]

/-- R85: the seven operations that take no argument. -/
def Obligations.ArgumentMustBeZero : Prop :=
  ∀ (arg : BitVec 4) (img : Image),
    decode (0x1#4 ++ arg ++ 0#8) .absent = (if arg = 0 then .ok .reset else .error .illegalOp) ∧
    decode (0x2#4 ++ arg ++ 0#8) .absent = (if arg = 0 then .ok .initialise else .error .illegalOp) ∧
    decode (0x7#4 ++ arg ++ 0#8) .absent = (if arg = 0 then .ok .refreshNow else .error .illegalOp) ∧
    decode (0x8#4 ++ arg ++ 0#8) .absent = (if arg = 0 then .ok .sleep else .error .illegalOp) ∧
    decode (0x9#4 ++ arg ++ 0#8) .absent = (if arg = 0 then .ok .powerOn else .error .illegalOp) ∧
    decode (0xA#4 ++ arg ++ 0#8) .absent = (if arg = 0 then .ok .powerOff else .error .illegalOp) ∧
    decode (0xB#4 ++ arg ++ 0#8) (.image img) = (if arg = 0 then .ok (.streamImage img) else .error .illegalOp)

/-! ### The configuration -/

/-- R91, R88 and the constraints of R8: at least fourteen entries in `INIT_SEQ`, each with a payload of 1 to 9 bytes; refresh
payloads of at most 9 bytes; `T_PWR_MS` at least 100. And, of the way the model builds them (log entry 1): every payload and every
entry these bounds allow can be built. -/
def Obligations.ConfigurationConstraints : Prop :=
  14 ≤ Config.initSeq.length ∧
  (∀ e ∈ Config.initSeq, 1 ≤ e.payload.length ∧ e.payload.length ≤ 9) ∧
  (∀ ps ∈ [Config.ponPayload, Config.drfPayload, Config.pofPayload], ps.length ≤ 9) ∧
  100 ≤ Config.tPwrMs ∧
  (∀ ps : List Byte, ps.length ≤ 9 → ∃ r, Config.payloadOf r = ps) ∧
  (∀ e : Config.InitEntry, 1 ≤ e.payload.length → e.payload.length ≤ 9 → ∃ r, Config.entryOf r = e)

/-! ### The step relation -/

/-- A host step runs the decoded operation: on an idle block whose host's next operation decodes, the step is that
operation's `exec` with the operation taken from the host program (R123; that the host program stands in State is the
model's choice, log entry 3). -/
def Obligations.StepRunsDecodedOperation : Prop :=
  ∀ (s : State) (op : HostOp) (more : List HostOp) (i : Instr),
    s.Idle → s.hostOps = op :: more → decode op.word op.operand = .ok i →
    step s = exec i { s with hostOps := more }

/-- A decode fault is raised before any micro-op runs: only the fault register changes (R123, R232), and the operation has
been issued (log entry 3). -/
def Obligations.DecodeFaultIsRaised : Prop :=
  ∀ (s : State) (op : HostOp) (more : List HostOp) (f : FaultCode),
    s.Idle → s.hostOps = op :: more → decode op.word op.operand = .error f →
    step s = .next { s with hostOps := more, fault := some f }

/-- A final block waits: the model's choice for a step with no operation offered (log entry 4). -/
def Obligations.FinalBlockWaits : Prop :=
  ∀ s : State, s.Final → step s = .next s

/-- R124: in the faulted state no micro step and no host step is enabled, the state is not final, and a block reset leaves
it. R124 enables no step; that `step` and `exec` answer the outcome `halted` there is the model's choice (log entry 5), and
that the block reset is an operation of its own is log entry 11. -/
def Obligations.FaultedBlockHasNoStep : Prop :=
  ∀ (s : State) (f : FaultCode), s.fault = some f →
    step s = .fault (.halted f) ∧ (∀ i : Instr, exec i s = .fault (.halted f)) ∧ ¬ s.Final ∧
    ∀ launch : Pins, (blockReset launch s).fault = none

/-- While a micro-program runs the host has no move (R110, R262): the block's own step takes no operation from it. What `exec`
answers for an operation presented there all the same, the refusal `hostStepWhileBusy`, is the model's choice (log entry 6);
the rules name no refusal. -/
def Obligations.NoHostStepWhileBusy : Prop :=
  ∀ (s : State), s.fault = none → s.prog ≠ [] →
    (∀ i : Instr, exec i s = .refused .hostStepWhileBusy) ∧
    ∃ t, step s = .next t ∧ t.hostOps = s.hostOps

/-- R111: a micro step runs one micro-op and leaves the rest; a `WAITBUSY` that samples busy leaves the micro-program as it
is; a fault empties it. -/
def Obligations.MicroStepRunsOneMicroOp : Prop :=
  ∀ (draw : Nat → Level) (s : State) (m : MicroOp) (rest : List MicroOp), s.fault = none → s.prog = m :: rest →
    ∃ t, stepWith draw s = .next t ∧
      (if m = .waitBusy ∧ draw s.draws = Config.busyActive then t.fault = none ∧ t.prog = s.prog
       else (t.fault = none ∧ t.prog = rest) ∨ (t.fault ≠ none ∧ t.prog = []))

/-- R112: `SETPIN` writes its latch and no other, and emits its event even when the level does not change. -/
def Obligations.SetPinMicroOp : Prop :=
  ∀ (s : State) (p : Pin) (l : Level) (rest : List MicroOp), s.fault = none → s.prog = .setPin p l :: rest →
    ∃ pins : Pins, (∀ q, pinLatch pins q = if q = p then some l else pinLatch s.pin q) ∧
      step s = .next { s with prog := rest, pin := pins, trace := s.trace ++ [.setPin p l] }

/-- R113, R114: a command or payload byte goes out where a chip select is asserted, and is `NoTarget` otherwise. -/
def Obligations.CommandAndPayloadBytes : Prop :=
  ∀ (s : State) (b : Byte) (rest : List MicroOp), s.fault = none →
    let t : Event → State := fun e =>
      if pinLatch s.pin .csM ≠ some Config.csActive ∧ pinLatch s.pin .csS ≠ some Config.csActive then
        { s with fault := some .noTarget, prog := [] }
      else { s with prog := rest, trace := s.trace ++ [e] }
    (s.prog = .cmd b :: rest → step s = .next (t (.byte .cmd b))) ∧
    (s.prog = .param b :: rest → step s = .next (t (.byte .data b)))

/-- R115: a pixel byte goes out where a frame is open and exactly its panel's chip select is asserted, and is `CsConflict`
otherwise; and the check cannot fail in a disciplined state, which every state after a clean entry is. -/
def Obligations.PixelByteNeedsItsChipSelect : Prop :=
  ∀ (s : State) (b : Byte) (rest : List MicroOp), s.fault = none → s.prog = .pixData b :: rest →
    ((∃ p, s.frame = some p ∧ selected s.pin p = true ∧ selected s.pin (otherPanel p) = false) →
      step s = .next { s with prog := rest, trace := s.trace ++ [.byte .data b] }) ∧
    ((¬ ∃ p, s.frame = some p ∧ selected s.pin p = true ∧ selected s.pin (otherPanel p) = false) →
      step s = .next { s with fault := some .csConflict, prog := [] }) ∧
    (s.Disciplined → ∃ p, s.frame = some p ∧ selected s.pin p = true ∧ selected s.pin (otherPanel p) = false)

/-- R116 to R119: the four micro-ops that neither send nor sample; and the count never goes past 1600 in a disciplined
state. -/
def Obligations.DelayAndRegisterMicroOps : Prop :=
  ∀ (s : State) (rest : List MicroOp), s.fault = none →
    (∀ n, s.prog = .delay n :: rest → step s = .next { s with prog := rest, trace := s.trace ++ [.delay n] }) ∧
    (∀ l, s.prog = .setLife l :: rest → step s = .next { s with prog := rest, life := l }) ∧
    (∀ f, s.prog = .setFrame f :: rest → step s = .next { s with prog := rest, frame := f, lines := 0 }) ∧
    (s.prog = .incLine :: rest → step s = .next { s with prog := rest, lines := s.lines + 1 }) ∧
    (s.prog = .incLine :: rest → s.Disciplined → s.lines + 1 ≤ 1600)

/-- R120, R237: the busy wait, for every level the oracle may show: one step of it; the whole wait where `k` draws are busy and
the next is not; and the hang where every draw is busy, in which after any number of steps the micro-program is as it was, with
one more sample and poll delay for each step, and no fault. -/
def Obligations.BusyWaitMicroOp : Prop :=
  ∀ (draw : Nat → Level) (s : State) (rest : List MicroOp), s.fault = none → s.prog = .waitBusy :: rest →
    (stepWith draw s = .next
      (if draw s.draws = Config.busyActive then
        { s with draws := s.draws + 1, trace := s.trace ++ [.sampleBusy (draw s.draws), .delay Config.tPollMs] }
       else
        { s with
          draws := s.draws + 1
          trace := s.trace ++ [.sampleBusy (draw s.draws), .delay Config.tSettleMs]
          prog := rest })) ∧
    (∀ k, BusyFor draw s.draws k →
      Reaches draw s { s with prog := rest, draws := s.draws + k + 1, trace := s.trace ++ busyWaitEvents k }) ∧
    ((∀ n, draw (s.draws + n) = Config.busyActive) →
      ∀ n : Nat, runWith draw n s = .next { s with draws := s.draws + n, trace := s.trace ++ pollEvents n })

/-- What `exec` leaves unchanged when it answers a next state, for every operation: all but the micro-program and the fault
register. In particular no event is emitted and no pin is driven (R123), and a fault it raises changes nothing else (R232,
which the spec derives). The block has no memory (R60). -/
def Obligations.ExecFrame : Prop :=
  ∀ (i : Instr) (s t : State), exec i s = .next t →
    t.life = s.life ∧ t.frame = s.frame ∧ t.lines = s.lines ∧ t.pin = s.pin ∧ t.trace = s.trace ∧
    t.hostOps = s.hostOps ∧ t.draws = s.draws ∧ (t.fault = none ∨ t.prog = [])

/-! ### Reset and ports -/

/-- R42, R260: what a block reset leaves, with the latches the launch gives; that it leaves the model's own fields `hostOps`
and `draws` as they are is the model's choice (log entry 11). And the model's reset state is the one of a launch that meets
R261, with `RST` and `PWR` not driven, which is the model's choice too (log entry 7). -/
def Obligations.BlockResetState : Prop :=
  (∀ (launch : Pins) (s : State),
    blockReset launch s =
      { life := .uninitialized, frame := none, lines := 0, prog := [], fault := none, pin := launch, trace := [],
        hostOps := s.hostOps, draws := s.draws }) ∧
  State.reset.Idle ∧ State.reset.life = .uninitialized ∧ State.reset.frame = none ∧ State.reset.lines = 0 ∧
  State.reset.trace = [] ∧ State.reset.pin.BothInactive ∧ State.reset.pin.rst = none ∧ State.reset.pin.pwr = none

/-- R35, R230, R21, R22: the `IDLE` port is the idle condition; the `FAULT` port is 0 exactly with no fault, and the codes of
the faults, of the lifecycle states and of the open-frame register are those of their tables. -/
def Obligations.StatusPorts : Prop :=
  (∀ s : State, idlePort s = true ↔ s.Idle) ∧
  (∀ s : State, faultPort s = 0 ↔ s.fault = none) ∧
  (∀ s t : State, faultPort s = faultPort t → s.fault = t.fault) ∧
  (∀ s : State,
    [FaultCode.illegalOp, .badPanel, .badColor, .illegalState, .frameOpen, .frameNotOpen, .panelMismatch, .badLineLength,
      .frameOverflow, .incompleteFrame, .badColorCode, .notPowered, .noTarget, .csConflict].map
        (fun f => (faultPort { s with fault := some f }).toNat) =
      [1, 2, 3, 4, 5, 6, 7, 8, 9, 10, 11, 12, 13, 14]) ∧
  [Life.uninitialized, .resetting, .configuring, .ready, .streaming, .refreshing, .sleeping, .poweredOff].map
    (fun l => (lifeCode l).toNat) = [0, 1, 2, 3, 4, 5, 6, 7] ∧
  [none, some Panel.master, some Panel.slave].map (fun f => (frameCode f).toNat) = [0, 1, 2]

/-- R27, R28: the chip-select predicates, their count, and the power predicate, in terms of the latches. A latch that is not
driven counts as not selected and not high. -/
def Obligations.PinPredicates : Prop :=
  ∀ ps : Pins,
    (selected ps .master = true ↔ ps.csM = some Config.csActive) ∧
    (selected ps .slave = true ↔ ps.csS = some Config.csActive) ∧
    nsel ps = (if ps.csM = some Config.csActive then 1 else 0) + (if ps.csS = some Config.csActive then 1 else 0) ∧
    (powered ps = true ↔ Config.hasPowerPin = false ∨ ps.pwr = some .high)

/-- The tag of a byte event, of a trace in order (R39). -/
def byteTags (es : List Event) : List Tag :=
  es.filterMap fun e => match e with
    | .byte t _ => some t
    | _ => none

/-- R37 over R88 and R89: in the framing of a command frame, and of a pixel-data frame, the first byte after the chip-select
assertion is the command and the rest are data, so the places of the bytes tell their tags. -/
def Obligations.TagsFollowFromPlaces : Prop :=
  (∀ (t : Target) (c : Byte) (ps : List Byte),
    byteTags (commandFrameEvents t c ps) = positionalTags (ps.length + 1)) ∧
  ∀ (p : Panel) (yields : Bool) (lines : List (List Byte)),
    byteTags (pixelFrameEvents p yields lines) = positionalTags (lines.flatten.length + 1)

/-! ### Lifecycle operations -/

/-- R141, R142: `RESET`. Its word, its admission, its micro-program, and its run: the ten events of the double pulse, the
reset latch at the run level, every other latch as before. -/
def Obligations.ResetOperation : Prop :=
  decode 0x1000 .absent = .ok .reset ∧
  (∀ s : State, s.Idle → powered s.pin = true → s.life ≠ .poweredOff → s.frame = none →
    exec .reset s = .next
      { s with
        prog :=
          [.setLife .resetting,
           .setPin .rst Config.rstAssert, .delay Config.rstDelayMs[0],
           .setPin .rst Config.rstAssert.other, .delay Config.rstDelayMs[1],
           .setPin .rst Config.rstAssert, .delay Config.rstDelayMs[2],
           .setPin .rst Config.rstAssert.other, .delay Config.rstDelayMs[3],
           .setPin .rst Config.rstAssert, .delay Config.rstDelayMs[4]] }) ∧
  (∀ s : State, s.Idle → ¬ (powered s.pin = true ∧ s.life ≠ .poweredOff ∧ s.frame = none) →
    exec .reset s = .next
      { s with
        fault := some
          (if powered s.pin = false then .notPowered else if s.life = .poweredOff then .illegalState else .frameOpen) }) ∧
  (∀ (draw : Nat → Level) (s : State) (more : List HostOp),
    s.Idle → powered s.pin = true → s.life ≠ .poweredOff → s.frame = none →
    Reaches draw (s.offered .reset more)
      { s with
        hostOps := more
        life := .resetting
        pin := { s.pin with rst := some Config.rstAssert }
        trace := s.trace ++ resetEvents })

/-- R143, R144: `INITIALIZE`. Its word, its admission, its micro-program, and its run, which raises no fault whatever the latches
are: one command frame for each entry of `INIT_SEQ`, in list order. From a block with both chip selects inactive the latches end
as they were. From any latches they end as the frames' pin writes leave them: every select that an entry targets inactive, and
every other latch, `RST` and `PWR` among them, as it was. -/
def Obligations.InitializeOperation : Prop :=
  decode 0x2000 .absent = .ok .initialise ∧
  (∀ s : State, s.Idle → s.life = .resetting → s.frame = none →
    exec .initialise s = .next
      { s with
        prog :=
          [.setLife .configuring] ++ Config.initSeq.flatMap (fun e => cmdFrame e.target e.cmd e.payload)
            ++ [.setLife .ready] }) ∧
  (∀ s : State, s.Idle → ¬ (s.life = .resetting ∧ s.frame = none) →
    exec .initialise s = .next { s with fault := some (if s.life ≠ .resetting then .illegalState else .frameOpen) }) ∧
  (∀ (draw : Nat → Level) (s : State) (more : List HostOp),
    s.Idle → s.life = .resetting → s.frame = none → s.pin.BothInactive →
    Reaches draw (s.offered .initialise more)
      { s with
        hostOps := more
        life := .ready
        trace := s.trace ++ Config.initSeq.flatMap fun e => commandFrameEvents e.target e.cmd e.payload }) ∧
  let es := Config.initSeq.flatMap fun e => commandFrameEvents e.target e.cmd e.payload
  (∀ (draw : Nat → Level) (s : State) (more : List HostOp), s.Idle → s.life = .resetting → s.frame = none →
    Reaches draw (s.offered .initialise more)
      { s with
        hostOps := more
        life := .ready
        pin := replayPins s.pin es
        trace := s.trace ++ es }) ∧
  ∀ ps : Pins,
    (replayPins ps es).rst = ps.rst ∧ (replayPins ps es).pwr = ps.pwr ∧
    (∀ e ∈ Config.initSeq, ∀ p ∈ targetPins e.target, pinLatch (replayPins ps es) p = some Config.csInactive) ∧
    ∀ p : Pin, (∀ e ∈ Config.initSeq, p ∉ targetPins e.target) → pinLatch (replayPins ps es) p = pinLatch ps p

/-- R145, R146, with R122's sequence: `REFRESH_NOW`. Its word, its admission, and its run for busy waits of any finite
lengths: a wait after the power-on frame and after the data-refresh frame, none after the power-off frame. -/
def Obligations.RefreshNowOperation : Prop :=
  decode 0x7000 .absent = .ok .refreshNow ∧
  (∀ s : State, s.Idle → s.life = .ready ∨ s.life = .streaming → s.frame = none →
    exec .refreshNow s = .next
      { s with
        prog :=
          [.setLife .refreshing]
            ++ cmdFrame .both Config.cmdPon Config.ponPayload ++ [.waitBusy]
            ++ cmdFrame .both Config.cmdDrf Config.drfPayload ++ [.waitBusy]
            ++ cmdFrame .both Config.cmdPof Config.pofPayload ++ [.setLife .ready] }) ∧
  (∀ s : State, s.Idle → ¬ ((s.life = .ready ∨ s.life = .streaming) ∧ s.frame = none) →
    exec .refreshNow s = .next
      { s with
        fault := some
          (if s.life ≠ .ready ∧ s.life ≠ .streaming then .illegalState else .frameOpen) }) ∧
  (∀ (draw : Nat → Level) (s : State) (more : List HostOp) (k1 k2 : Nat),
    s.Idle → s.life = .ready ∨ s.life = .streaming → s.frame = none →
    BusyFor draw s.draws k1 → BusyFor draw (s.draws + k1 + 1) k2 →
    Reaches draw (s.offered .refreshNow more)
      { s with
        hostOps := more
        life := .ready
        pin := { s.pin with csM := some Config.csInactive, csS := some Config.csInactive }
        trace := s.trace ++ refreshEvents k1 k2
        draws := s.draws + k1 + k2 + 2 })

/-- R147: `SLEEP`, from `Ready` only. For an open frame see `OpenFrameAdmitsOnlyLinesAndEnd`. -/
def Obligations.SleepOperation : Prop :=
  decode 0x8000 .absent = .ok .sleep ∧
  (∀ s : State, s.Idle → s.life = .ready → s.frame = none →
    exec .sleep s = .next
      { s with
        prog :=
          cmdFrame .both Config.cmdDslp [Config.dslpMagic] ++ [.delay Config.tSleepMs, .setLife .sleeping] }) ∧
  (∀ s : State, s.Idle → s.life ≠ .ready → exec .sleep s = .next { s with fault := some .illegalState }) ∧
  (∀ (draw : Nat → Level) (s : State) (more : List HostOp), s.Idle → s.life = .ready → s.frame = none →
    Reaches draw (s.offered .sleep more)
      { s with
        hostOps := more
        life := .sleeping
        pin := { s.pin with csM := some Config.csInactive, csS := some Config.csInactive }
        trace := s.trace ++ sleepEvents })

/-- R148: `POWER_ON`, with and without the power pin; `T_PWR_MS` is at least 100. For an open frame see
`OpenFrameAdmitsOnlyLinesAndEnd`. -/
def Obligations.PowerOnOperation : Prop :=
  100 ≤ Config.tPwrMs ∧ decode 0x9000 .absent = .ok .powerOn ∧
  (∀ s : State, s.Idle → s.life = .uninitialized ∨ s.life = .poweredOff → s.frame = none →
    exec .powerOn s = .next
      { s with
        prog :=
          if Config.hasPowerPin = true then [.setPin .pwr .high, .delay Config.tPwrMs, .setLife .uninitialized]
          else [.setLife .uninitialized] }) ∧
  (∀ s : State, s.Idle → s.life ≠ .uninitialized → s.life ≠ .poweredOff →
    exec .powerOn s = .next { s with fault := some .illegalState }) ∧
  (∀ (draw : Nat → Level) (s : State) (more : List HostOp),
    s.Idle → s.life = .uninitialized ∨ s.life = .poweredOff → s.frame = none →
    Reaches draw (s.offered .powerOn more)
      (if Config.hasPowerPin = true then
        { s with
          hostOps := more
          life := .uninitialized
          pin := { s.pin with pwr := some .high }
          trace := s.trace ++ [.setPin .pwr .high, .delay Config.tPwrMs] }
       else { s with hostOps := more, life := .uninitialized }))

/-- R149: `POWER_OFF`, with and without the power pin: the whole sleep program, then, with the pin, `PWR` low. For an open frame
see `OpenFrameAdmitsOnlyLinesAndEnd`. -/
def Obligations.PowerOffOperation : Prop :=
  decode 0xA000 .absent = .ok .powerOff ∧
  (∀ s : State, s.Idle → s.life = .ready ∨ s.life = .sleeping → s.frame = none →
    exec .powerOff s = .next
      { s with
        prog :=
          cmdFrame .both Config.cmdDslp [Config.dslpMagic] ++ [.delay Config.tSleepMs, .setLife .sleeping]
            ++ if Config.hasPowerPin = true then [.setPin .pwr .low, .setLife .poweredOff] else [] }) ∧
  (∀ s : State, s.Idle → s.life ≠ .ready → s.life ≠ .sleeping →
    exec .powerOff s = .next { s with fault := some .illegalState }) ∧
  (∀ (draw : Nat → Level) (s : State) (more : List HostOp),
    s.Idle → s.life = .ready ∨ s.life = .sleeping → s.frame = none →
    Reaches draw (s.offered .powerOff more)
      { s with
        hostOps := more
        life := if Config.hasPowerPin = true then .poweredOff else .sleeping
        pin :=
          { s.pin with
            csM := some Config.csInactive
            csS := some Config.csInactive
            pwr := if Config.hasPowerPin = true then some .low else s.pin.pwr }
        trace := s.trace ++ sleepEvents ++ if Config.hasPowerPin = true then [.setPin .pwr .low] else [] })

/-- R140's table read for an open frame: it admits no operation but `WRITE_LINE` and `END_FRAME`, and each of the others faults,
which is all it does. In `Streaming`, where every frame is opened, the fault is the first its columns give. -/
def Obligations.OpenFrameAdmitsOnlyLinesAndEnd : Prop :=
  ∀ (i : Instr) (s : State), s.Idle → s.frame ≠ none → (∀ p bs, i ≠ .writeLine p bs) → (∀ p, i ≠ .endFrame p) →
    ∃ f : FaultCode, exec i s = .next { s with fault := some f } ∧
      (s.life = .streaming →
        f = if i = .initialise ∨ i = .sleep ∨ i = .powerOn ∨ i = .powerOff then .illegalState
            else if i = .reset ∧ powered s.pin = false then .notPowered
            else .frameOpen)

/-- R263, in the order it gives: `POWER_ON`, `RESET`, `INITIALIZE` bring an uninitialized block with both chip selects
inactive to `Ready`, with the events of the three operations in that order. -/
def Obligations.BootSequenceReachesReady : Prop :=
  ∀ (draw : Nat → Level) (s : State), s.Idle → s.life = .uninitialized → s.frame = none → s.pin.BothInactive →
    Reaches draw { s with hostOps := hostProgram [.powerOn, .reset, .initialise] }
      { s with
        hostOps := []
        life := .ready
        pin :=
          { s.pin with
            rst := some Config.rstAssert
            pwr := if Config.hasPowerPin = true then some .high else s.pin.pwr }
        trace := s.trace
          ++ (if Config.hasPowerPin = true then [.setPin .pwr .high, .delay Config.tPwrMs] else [])
          ++ resetEvents ++ Config.initSeq.flatMap fun e => commandFrameEvents e.target e.cmd e.payload }

/-! ### The framer -/

/-- R170: `BEGIN_FRAME`, for each panel: only a Slave frame deselects the other panel first. -/
def Obligations.BeginFrameOperation : Prop :=
  decode 0x4000 .absent = .ok (.beginFrame .master) ∧ decode 0x4100 .absent = .ok (.beginFrame .slave) ∧
  (∀ arg : BitVec 4, 2 ≤ arg.toNat → decode (0x4#4 ++ arg ++ 0#8) .absent = .error .badPanel) ∧
  (∀ s : State, s.Idle → s.life = .ready ∨ s.life = .streaming → s.frame = none →
    exec (.beginFrame .master) s = .next
      { s with
        prog :=
          [.setLife .streaming, .setFrame (some .master), .setPin .csM Config.csActive, .cmd Config.cmdDtm] } ∧
    exec (.beginFrame .slave) s = .next
      { s with
        prog :=
          [.setLife .streaming, .setFrame (some .slave), .setPin .csM Config.csActive.other, .setPin .csS Config.csActive,
           .cmd Config.cmdDtm] }) ∧
  (∀ (s : State) (p : Panel), s.Idle → ¬ ((s.life = .ready ∨ s.life = .streaming) ∧ s.frame = none) →
    exec (.beginFrame p) s = .next
      { s with
        fault := some
          (if s.life ≠ .ready ∧ s.life ≠ .streaming then .illegalState else .frameOpen) }) ∧
  (∀ (draw : Nat → Level) (s : State) (p : Panel) (more : List HostOp),
    s.Idle → s.life = .ready ∨ s.life = .streaming → s.frame = none →
    Reaches draw (s.offered (.beginFrame p) more)
      { s with
        hostOps := more
        life := .streaming
        frame := some p
        lines := 0
        pin := match p with
          | .master => { s.pin with csM := some Config.csActive }
          | .slave => { s.pin with csM := some Config.csInactive, csS := some Config.csActive }
        trace := s.trace ++ frameOpenEvents p })

/-- R172: `WRITE_LINE p, []` is a no-op in every idle state, and its decode still checks the panel. -/
def Obligations.EmptyLineIsNoOp : Prop :=
  (∀ (s : State) (p : Panel), s.Idle → exec (.writeLine p []) s = .next s) ∧
  (∀ arg : BitVec 4, 2 ≤ arg.toNat → decode (0x5#4 ++ arg ++ 0#8) (.bytes []) = .error .badPanel)

/-- R173, with R140's row for it: a non-empty `WRITE_LINE`. Its words and their decode faults; what it does in any idle state, the
first fault that applies in the order state, frame, panel, length, overflow, colour code, or the line's micro-program; and the
run of an admitted line where exactly the frame's chip select is asserted: its 300 bytes in order, and the line counted. -/
def Obligations.WriteLineOperation : Prop :=
  (∀ (arg : BitVec 4) (bs : List Byte),
    decode (0x5#4 ++ arg ++ 0#8) .absent = .error .illegalOp ∧
    decode 0x5000 (.bytes bs) = .ok (.writeLine .master bs) ∧ decode 0x5100 (.bytes bs) = .ok (.writeLine .slave bs) ∧
    (2 ≤ arg.toNat → decode (0x5#4 ++ arg ++ 0#8) (.bytes bs) = .error .badPanel)) ∧
  (∀ (s : State) (p : Panel) (bs : List Byte), s.Idle → bs ≠ [] →
    exec (.writeLine p bs) s = .next
      (if s.life ≠ .streaming then { s with fault := some .illegalState }
       else if s.frame = none then { s with fault := some .frameNotOpen }
       else if s.frame ≠ some p then { s with fault := some .panelMismatch }
       else if bs.length ≠ 300 then { s with fault := some .badLineLength }
       else if s.lines = 1600 then { s with fault := some .frameOverflow }
       else if (∃ b ∈ bs, 6 ≤ b.toNat / 16 ∨ 6 ≤ b.toNat % 16) then { s with fault := some .badColorCode }
       else { s with prog := bs.map .pixData ++ [.incLine] })) ∧
  (∀ (draw : Nat → Level) (s : State) (p : Panel) (bs : List Byte) (more : List HostOp),
    s.Idle → s.life = .streaming → s.frame = some p →
    bs.length = 300 → s.lines ≠ 1600 → bs.all validByte = true →
    selected s.pin p = true → selected s.pin (otherPanel p) = false →
    Reaches draw (s.offered (.writeLine p bs) more)
      { s with hostOps := more, lines := s.lines + 1, trace := s.trace ++ bs.map (.byte .data) })

/-- R64, R174: an operation that keeps the operand contract never faults on its line's length or colour codes. -/
def Obligations.ContractLineRaisesNoContractFault : Prop :=
  ∀ (i : Instr) (s t : State), i.wellFormed = true → exec i s = .next t →
    t.fault ≠ some .badLineLength ∧ t.fault ≠ some .badColorCode

/-- R176: `END_FRAME`, admitted only for the open frame with 1600 lines, and its faults in their order. -/
def Obligations.EndFrameOperation : Prop :=
  decode 0x6000 .absent = .ok (.endFrame .master) ∧ decode 0x6100 .absent = .ok (.endFrame .slave) ∧
  (∀ arg : BitVec 4, 2 ≤ arg.toNat → decode (0x6#4 ++ arg ++ 0#8) .absent = .error .badPanel) ∧
  (∀ (s : State) (p : Panel), s.Idle → s.life = .streaming → s.frame = some p → s.lines = 1600 →
    exec (.endFrame p) s = .next { s with prog := [.setPin (csPin p) Config.csActive.other, .setFrame none] }) ∧
  (∀ (s : State) (p : Panel), s.Idle → ¬ (s.life = .streaming ∧ s.frame = some p ∧ s.lines = 1600) →
    exec (.endFrame p) s = .next
      { s with
        fault := some
          (if s.life ≠ .streaming then .illegalState
           else if s.frame = none then .frameNotOpen
           else if s.frame ≠ some p then .panelMismatch
           else .incompleteFrame) }) ∧
  (∀ (draw : Nat → Level) (s : State) (p : Panel) (more : List HostOp),
    s.Idle → s.life = .streaming → s.frame = some p → s.lines = 1600 →
    Reaches draw (s.offered (.endFrame p) more)
      { s with
        hostOps := more
        frame := none
        lines := 0
        pin := match p with
          | .master => { s.pin with csM := some Config.csInactive }
          | .slave => { s.pin with csS := some Config.csInactive }
        trace := s.trace ++ frameCloseEvents p })

/-! ### The compositor -/

/-- R212: `CLEAR`. Its words, its admission, its micro-program, and what it emits from a block with both chip selects inactive:
the frame of R89 with 1600 lines of 300 equal bytes and the row yield for Master, then for Slave, then the refresh. -/
def Obligations.ClearOperation : Prop :=
  (∀ c : PixelColor, decode (0x3#4 ++ BitVec.ofNat 4 c.index.val ++ 0#8) .absent = .ok (.clear c)) ∧
  (∀ arg : BitVec 4, 6 ≤ arg.toNat → decode (0x3#4 ++ arg ++ 0#8) .absent = .error .badColor) ∧
  (∀ (s : State) (c : PixelColor), s.Idle → s.life = .ready ∨ s.life = .streaming → s.frame = none →
    exec (.clear c) s = .next
      { s with
        prog :=
          [Panel.master, .slave].flatMap (fun p =>
            beginProg p
              ++ (List.replicate 1600
                  (List.replicate 300 (.pixData (pack c c)) ++ [.incLine, .delay 1])).flatten
              ++ endProg p)
            ++ refreshProg }) ∧
  (∀ (s : State) (c : PixelColor), s.Idle → ¬ ((s.life = .ready ∨ s.life = .streaming) ∧ s.frame = none) →
    exec (.clear c) s = .next
      { s with
        fault := some
          (if s.life ≠ .ready ∧ s.life ≠ .streaming then .illegalState else .frameOpen) }) ∧
  (∀ (draw : Nat → Level) (s : State) (c : PixelColor) (more : List HostOp) (k1 k2 : Nat),
    s.Idle → s.life = .ready ∨ s.life = .streaming → s.frame = none → s.pin.BothInactive →
    BusyFor draw s.draws k1 → BusyFor draw (s.draws + k1 + 1) k2 →
    Reaches draw (s.offered (.clear c) more)
      { s with
        hostOps := more
        life := .ready
        lines := 0
        trace := s.trace
          ++ pixelFrameEvents .master true (List.replicate 1600 (List.replicate 300 (pack c c)))
          ++ pixelFrameEvents .slave true (List.replicate 1600 (List.replicate 300 (pack c c)))
          ++ refreshEvents k1 k2
        draws := s.draws + k1 + k2 + 2 })

/-- R213: `STREAM_IMAGE`. Its words, its admission, its micro-program, and what it emits from a block with both chip selects
inactive: the frame of R89 with the image's packed half-rows for Master, then for Slave, then the refresh. -/
def Obligations.StreamImageOperation : Prop :=
  (∀ (arg : BitVec 4) (img : Image),
    decode (0xB#4 ++ arg ++ 0#8) (.image img) = (if arg = 0 then .ok (.streamImage img) else .error .illegalOp) ∧
    decode (0xB#4 ++ arg ++ 0#8) .absent = .error .illegalOp) ∧
  (∀ (s : State) (img : Image), s.Idle → s.life = .ready ∨ s.life = .streaming → s.frame = none →
    exec (.streamImage img) s = .next
      { s with
        prog :=
          [Panel.master, .slave].flatMap (fun p =>
            beginProg p
              ++ (List.ofFn fun y : Fin 1600 => lineProg (packHalf (split (imageRow img y) p))).flatten
              ++ endProg p)
            ++ refreshProg }) ∧
  (∀ (s : State) (img : Image), s.Idle → ¬ ((s.life = .ready ∨ s.life = .streaming) ∧ s.frame = none) →
    exec (.streamImage img) s = .next
      { s with
        fault := some
          (if s.life ≠ .ready ∧ s.life ≠ .streaming then .illegalState else .frameOpen) }) ∧
  (∀ (draw : Nat → Level) (s : State) (img : Image) (more : List HostOp) (k1 k2 : Nat),
    s.Idle → s.life = .ready ∨ s.life = .streaming → s.frame = none → s.pin.BothInactive →
    BusyFor draw s.draws k1 → BusyFor draw (s.draws + k1 + 1) k2 →
    Reaches draw (s.offered (.streamImage img) more)
      { s with
        hostOps := more
        life := .ready
        lines := 0
        trace := s.trace
          ++ pixelFrameEvents .master false (imageLines img .master)
          ++ pixelFrameEvents .slave false (imageLines img .slave)
          ++ refreshEvents k1 k2
        draws := s.draws + k1 + k2 + 2 })

/-- R214, which the spec derives: from a block with both chip selects inactive, `STREAM_IMAGE` and the host triad end in the
same final states, trace included, for the same busy draws. -/
def Obligations.StreamImageEqualsHostTriad : Prop :=
  ∀ (draw : Nat → Level) (s : State) (img : Image),
    s.Idle → s.life = .ready ∨ s.life = .streaming → s.frame = none → s.pin.BothInactive →
    ∀ t : State, t.Final →
      (Reaches draw { s with hostOps := hostProgram [.streamImage img] } t ↔
       Reaches draw { s with hostOps := hostProgram (triadProgram img) } t)

/-- R214's sentence on `CLEAR` and the event counts of R212, which the spec derives: `CLEAR c` is `STREAM_IMAGE` of the image that
is all `c`, but for a `DELAY(1)` after every line. An admitted `CLEAR` has the lines of that image, each with the delay after it;
in every idle state, admitted or not, `STREAM_IMAGE` does what `CLEAR` does with the `DELAY(1)` micro-ops left out; and the two
halves emit 481603 and 481604 events. -/
def Obligations.ClearStreamsUniformImage : Prop :=
  ∀ c : PixelColor,
    (∀ s : State, s.Idle → s.life = .ready ∨ s.life = .streaming → s.frame = none →
      exec (.clear c) s = .next
        { s with
          prog :=
            [Panel.master, .slave].flatMap (fun p =>
              beginProg p ++ (imageLines (uniformImage c) p).flatMap (fun bs => lineProg bs ++ [.delay 1]) ++ endProg p)
              ++ refreshProg }) ∧
    (∀ s : State, s.Idle →
      ∃ t, exec (.clear c) s = .next t ∧
        exec (.streamImage (uniformImage c)) s = .next { t with prog := t.prog.filter fun m => m ≠ .delay 1 }) ∧
    (∀ p : Panel, imageLines (uniformImage c) p = List.replicate 1600 (List.replicate 300 (pack c c))) ∧
    (pixelFrameEvents .master true (imageLines (uniformImage c) .master)).length = 481603 ∧
    (pixelFrameEvents .slave true (imageLines (uniformImage c) .slave)).length = 481604

/-! ### Packing and the row multiplexer -/

/-- R190: the colour codes are one-to-one and at most 5, and so, as the spec derives, they take every value from 0 to 5. -/
def Obligations.ColourCodesAreTheSixValues : Prop :=
  Function.Injective colorCode ∧ (∀ c, (colorCode c).toNat ≤ 5) ∧
  ∀ n : BitVec 4, n.toNat ≤ 5 → ∃ c, colorCode c = n

/-- R191: `pack`, its value and its bound. -/
def Obligations.PackTwoColours : Prop :=
  ∀ e o : PixelColor,
    (pack e o).toNat = (colorCode e).toNat * 16 + (colorCode o).toNat ∧ (pack e o).toNat ≤ 0x55 ∧
    hiNibble (pack e o) = colorCode e ∧ loNibble (pack e o) = colorCode o

/-- R192, which the spec derives: unpacking a packed pair gives it back, a byte is valid exactly when it unpacks, and 36 bytes
are valid. -/
def Obligations.UnpackInvertsPack : Prop :=
  (∀ e o : PixelColor, unpack (pack e o) = some (e, o) ∧ validByte (pack e o) = true) ∧
  (∀ (b : Byte) (e o : PixelColor), unpack b = some (e, o) → b = pack e o) ∧
  (∀ b : Byte, validByte b = true ↔ (unpack b).isSome = true) ∧
  ((List.range 256).filter fun n => validByte (BitVec.ofNat 8 n)).length = 36

/-- R193: a half-row packs to 300 bytes, byte `k` from pixels `2k` and `2k + 1`. -/
def Obligations.PackHalfRow : Prop :=
  ∀ h : Fin 600 → PixelColor,
    (packHalf h).length = 300 ∧
    ∀ (k : Nat) (hk : k < 300), (packHalf h)[k]? = some (pack (h ⟨2 * k, by omega⟩) (h ⟨2 * k + 1, by omega⟩))

/-- R194: the byte `CLEAR` sends has the colour's code in both nibbles. -/
def Obligations.FillByte : Prop :=
  ∀ c : PixelColor, (fill c).toNat = (colorCode c).toNat * 17 ∧
    hiNibble (fill c) = colorCode c ∧ loNibble (fill c) = colorCode c

/-- R210: the split at column 600, and the two pixels at the seam in their bytes. -/
def Obligations.SplitAtSeam : Prop :=
  ∀ row : Fin 1200 → PixelColor,
    (∀ x : Fin 600, split row .master x = row ⟨x.val, by omega⟩ ∧ split row .slave x = row ⟨600 + x.val, by omega⟩) ∧
    (packHalf (split row .master))[299]?.map loNibble = some (colorCode (row ⟨599, by omega⟩)) ∧
    (packHalf (split row .slave))[0]?.map hiNibble = some (colorCode (row ⟨600, by omega⟩))

/-- R177, which the spec derives, with R62's addressing: the 480000 bytes of an image's half frame give every local pixel
`(y, x)` the image's colour at logical column `x` for Master and `600 + x` for Slave. -/
def Obligations.FrameCarriesImage : Prop :=
  ∀ (img : Image) (p : Panel),
    (imageLines img p).flatten.length = 480000 ∧
    ∀ (y : Fin 1600) (x : Fin 600),
      framePixel (imageLines img p).flatten y.val x.val = some (split (imageRow img y) p x)

/-! ### Rules of the whole machine -/

/-- Every step keeps the discipline behind R41 and R232: what is left of the micro-program raises no fault and ends in a
quiet block, and neither `NoTarget` nor `CsConflict` is ever raised. -/
def Obligations.StepKeepsDiscipline : Prop :=
  ∀ s t : State, s.Disciplined → step s = .next t → t.Disciplined

/-- A block reset whose latches meet the clean-entry premise is disciplined (R260, R261), the model's reset state among
them. -/
def Obligations.ResetIsDisciplined : Prop :=
  State.reset.Disciplined ∧
  ∀ (launch : Pins) (s : State), launch.BothInactive → (blockReset launch s).Disciplined

/-- R41, which the spec derives, and the last sentence of R140: what a disciplined block is when idle. -/
def Obligations.IdleInvariant : Prop :=
  ∀ s : State, s.Disciplined → s.Idle →
    (s.frame = none → selected s.pin .master = false ∧ selected s.pin .slave = false) ∧
    (∀ p, s.frame = some p →
      selected s.pin p = true ∧ selected s.pin (otherPanel p) = false ∧ s.life = .streaming) ∧
    s.lines ≤ 1600 ∧ s.life ≠ .configuring ∧ s.life ≠ .refreshing

/-- R23: the line counter of a disciplined block never passes 1600. -/
def Obligations.LineCounterStaysInRange : Prop :=
  ∀ s t : State, s.Disciplined → s.lines ≤ 1600 → step s = .next t → t.lines ≤ 1600

/-- R174, R92: every step keeps "what is left of the micro-program sends only valid pixel bytes and only commands of the closed
set"; and the reset state has it. -/
def Obligations.StepKeepsLegalBytes : Prop :=
  State.reset.SendsOnlyLegalBytes ∧
  ∀ s t : State, s.SendsOnlyLegalBytes → step s = .next t → t.SendsOnlyLegalBytes

/-- R92, with R90's closed set: a step that sends a byte finds a chip select asserted, and a command byte it sends is one of the
block's commands. -/
def Obligations.ByteEventsAreLegal : Prop :=
  ∀ (s t : State) (es : List Event) (tag : Tag) (b : Byte), s.SendsOnlyLegalBytes → step s = .next t →
    t.trace = s.trace ++ es → .byte tag b ∈ es →
    (selected s.pin .master = true ∨ selected s.pin .slave = true) ∧ (tag = .cmd → b ∈ busCommands)

/-- R268: a step that sends a pixel byte finds exactly the open frame's chip select asserted. -/
def Obligations.PixelTransferExcludesTheOtherSelect : Prop :=
  ∀ (s t : State) (b : Byte) (rest : List MicroOp), s.prog = .pixData b :: rest → step s = .next t →
    t.trace ≠ s.trace →
    ∃ p, s.frame = some p ∧ selected s.pin p = true ∧ selected s.pin (otherPanel p) = false ∧
      t.trace = s.trace ++ [.byte .data b]

/-- R68: a step only appends to the trace, at most two events, and in the order of the micro-program: what it appends are the
events of the micro-op at the head, and no others, or none where that micro-op raises a fault. An idle block's step appends
none. -/
def Obligations.StepAppendsToTrace : Prop :=
  ∀ s t : State, step s = .next t →
    ∃ es : List Event, t.trace = s.trace ++ es ∧ es.length ≤ 2 ∧
      (s.prog = [] → es = []) ∧
      ∀ m rest, s.prog = m :: rest →
        es = if t.fault = none then microEvents (Config.busyDraw s.draws) m else []

/-- R26, R112: the latches are at every moment what the pin writes in the trace have made of the latches at launch: every
step keeps it. -/
def Obligations.LatchesFollowTrace : Prop :=
  ∀ (launch : Pins) (s t : State), replayPins launch s.trace = s.pin → step s = .next t →
    replayPins launch t.trace = t.pin

/-- R69, R265 and the power rule of R264: no operation but those that refresh waits on busy, none but `RESET` drives the reset
line, none but `POWER_ON` raises `PWR`, none but `POWER_OFF` lowers it. -/
def Obligations.OwnersOfWaitsAndPins : Prop :=
  ∀ i : Instr,
    (MicroOp.waitBusy ∈ expand i → i = .refreshNow ∨ (∃ c, i = .clear c) ∨ ∃ img, i = .streamImage img) ∧
    (∀ l, MicroOp.setPin .rst l ∈ expand i → i = .reset) ∧
    (∀ l, MicroOp.setPin .pwr l ∈ expand i →
      Config.hasPowerPin = true ∧ ((i = .powerOn ∧ l = .high) ∨ (i = .powerOff ∧ l = .low)))

/-- R125, R273: under the fairness premise every run ends, whatever the state it starts from: in a final state or with the
fault register set. -/
def Obligations.FairRunsEnd : Prop :=
  ∀ draw : Nat → Level, Fair draw → ∀ s : State, ∃ t : State, Reaches draw s t ∧ (t.Final ∨ t.fault ≠ none)
end

