-- ==== Sys2Proof/Laws/State.lean ====
section
/-! SUPPORT. One lemma for each field of the state under each named update, so that no later proof unfolds a record update. -/

namespace Sys2Proof.Machine

variable (s : State)

/-! ### emit -/

@[simp] theorem emit_life (e : Event) : (emit e s).life = s.life := rfl
@[simp] theorem emit_frame (e : Event) : (emit e s).frame = s.frame := rfl
@[simp] theorem emit_lines (e : Event) : (emit e s).lines = s.lines := rfl
@[simp] theorem emit_prog (e : Event) : (emit e s).prog = s.prog := rfl
@[simp] theorem emit_fault (e : Event) : (emit e s).fault = s.fault := rfl
@[simp] theorem emit_pin (e : Event) : (emit e s).pin = s.pin := rfl
@[simp] theorem emit_trace (e : Event) : (emit e s).trace = s.trace ++ [e] := rfl
@[simp] theorem emit_hostOps (e : Event) : (emit e s).hostOps = s.hostOps := rfl
@[simp] theorem emit_draws (e : Event) : (emit e s).draws = s.draws := rfl

/-! ### drive -/

@[simp] theorem drive_life (p : Pin) (l : Level) : (drive p l s).life = s.life := rfl
@[simp] theorem drive_frame (p : Pin) (l : Level) : (drive p l s).frame = s.frame := rfl
@[simp] theorem drive_lines (p : Pin) (l : Level) : (drive p l s).lines = s.lines := rfl
@[simp] theorem drive_prog (p : Pin) (l : Level) : (drive p l s).prog = s.prog := rfl
@[simp] theorem drive_fault (p : Pin) (l : Level) : (drive p l s).fault = s.fault := rfl
@[simp] theorem drive_pin (p : Pin) (l : Level) : (drive p l s).pin = drivePins s.pin p l := rfl
@[simp] theorem drive_trace (p : Pin) (l : Level) : (drive p l s).trace = s.trace := rfl
@[simp] theorem drive_hostOps (p : Pin) (l : Level) : (drive p l s).hostOps = s.hostOps := rfl
@[simp] theorem drive_draws (p : Pin) (l : Level) : (drive p l s).draws = s.draws := rfl

/-! ### setProg -/

@[simp] theorem setProg_life (q : List MicroOp) : (setProg q s).life = s.life := rfl
@[simp] theorem setProg_frame (q : List MicroOp) : (setProg q s).frame = s.frame := rfl
@[simp] theorem setProg_lines (q : List MicroOp) : (setProg q s).lines = s.lines := rfl
@[simp] theorem setProg_prog (q : List MicroOp) : (setProg q s).prog = q := rfl
@[simp] theorem setProg_fault (q : List MicroOp) : (setProg q s).fault = s.fault := rfl
@[simp] theorem setProg_pin (q : List MicroOp) : (setProg q s).pin = s.pin := rfl
@[simp] theorem setProg_trace (q : List MicroOp) : (setProg q s).trace = s.trace := rfl
@[simp] theorem setProg_hostOps (q : List MicroOp) : (setProg q s).hostOps = s.hostOps := rfl
@[simp] theorem setProg_draws (q : List MicroOp) : (setProg q s).draws = s.draws := rfl

/-! ### raise -/

@[simp] theorem raise_life (f : FaultCode) : (raise f s).life = s.life := rfl
@[simp] theorem raise_frame (f : FaultCode) : (raise f s).frame = s.frame := rfl
@[simp] theorem raise_lines (f : FaultCode) : (raise f s).lines = s.lines := rfl
@[simp] theorem raise_prog (f : FaultCode) : (raise f s).prog = [] := rfl
@[simp] theorem raise_fault (f : FaultCode) : (raise f s).fault = some f := rfl
@[simp] theorem raise_pin (f : FaultCode) : (raise f s).pin = s.pin := rfl
@[simp] theorem raise_trace (f : FaultCode) : (raise f s).trace = s.trace := rfl
@[simp] theorem raise_hostOps (f : FaultCode) : (raise f s).hostOps = s.hostOps := rfl
@[simp] theorem raise_draws (f : FaultCode) : (raise f s).draws = s.draws := rfl

/-! ### microSetLife -/

@[simp] theorem microSetLife_life (v : Life) : (microSetLife v s).life = v := rfl
@[simp] theorem microSetLife_frame (v : Life) : (microSetLife v s).frame = s.frame := rfl
@[simp] theorem microSetLife_lines (v : Life) : (microSetLife v s).lines = s.lines := rfl
@[simp] theorem microSetLife_prog (v : Life) : (microSetLife v s).prog = s.prog := rfl
@[simp] theorem microSetLife_fault (v : Life) : (microSetLife v s).fault = s.fault := rfl
@[simp] theorem microSetLife_pin (v : Life) : (microSetLife v s).pin = s.pin := rfl
@[simp] theorem microSetLife_trace (v : Life) : (microSetLife v s).trace = s.trace := rfl
@[simp] theorem microSetLife_hostOps (v : Life) : (microSetLife v s).hostOps = s.hostOps := rfl
@[simp] theorem microSetLife_draws (v : Life) : (microSetLife v s).draws = s.draws := rfl

/-! ### microSetFrame -/

@[simp] theorem microSetFrame_life (f : Option Panel) : (microSetFrame f s).life = s.life := rfl
@[simp] theorem microSetFrame_frame (f : Option Panel) : (microSetFrame f s).frame = f := rfl
@[simp] theorem microSetFrame_lines (f : Option Panel) : (microSetFrame f s).lines = 0 := rfl
@[simp] theorem microSetFrame_prog (f : Option Panel) : (microSetFrame f s).prog = s.prog := rfl
@[simp] theorem microSetFrame_fault (f : Option Panel) : (microSetFrame f s).fault = s.fault := rfl
@[simp] theorem microSetFrame_pin (f : Option Panel) : (microSetFrame f s).pin = s.pin := rfl
@[simp] theorem microSetFrame_trace (f : Option Panel) : (microSetFrame f s).trace = s.trace := rfl
@[simp] theorem microSetFrame_hostOps (f : Option Panel) : (microSetFrame f s).hostOps = s.hostOps := rfl
@[simp] theorem microSetFrame_draws (f : Option Panel) : (microSetFrame f s).draws = s.draws := rfl

/-! ### microIncLine -/

@[simp] theorem microIncLine_life : (microIncLine s).life = s.life := rfl
@[simp] theorem microIncLine_frame : (microIncLine s).frame = s.frame := rfl
@[simp] theorem microIncLine_lines : (microIncLine s).lines = s.lines + 1 := rfl
@[simp] theorem microIncLine_prog : (microIncLine s).prog = s.prog := rfl
@[simp] theorem microIncLine_fault : (microIncLine s).fault = s.fault := rfl
@[simp] theorem microIncLine_pin : (microIncLine s).pin = s.pin := rfl
@[simp] theorem microIncLine_trace : (microIncLine s).trace = s.trace := rfl
@[simp] theorem microIncLine_hostOps : (microIncLine s).hostOps = s.hostOps := rfl
@[simp] theorem microIncLine_draws : (microIncLine s).draws = s.draws := rfl

/-! ### blockReset -/

@[simp] theorem blockReset_life (launch : Pins) : (blockReset launch s).life = .uninitialized := rfl
@[simp] theorem blockReset_frame (launch : Pins) : (blockReset launch s).frame = none := rfl
@[simp] theorem blockReset_lines (launch : Pins) : (blockReset launch s).lines = 0 := rfl
@[simp] theorem blockReset_prog (launch : Pins) : (blockReset launch s).prog = [] := rfl
@[simp] theorem blockReset_fault (launch : Pins) : (blockReset launch s).fault = none := rfl
@[simp] theorem blockReset_pin (launch : Pins) : (blockReset launch s).pin = launch := rfl
@[simp] theorem blockReset_trace (launch : Pins) : (blockReset launch s).trace = [] := rfl
@[simp] theorem blockReset_hostOps (launch : Pins) : (blockReset launch s).hostOps = s.hostOps := rfl
@[simp] theorem blockReset_draws (launch : Pins) : (blockReset launch s).draws = s.draws := rfl

/-! ### Pin latches -/

@[simp] theorem pinLatch_drivePins_same (ps : Pins) (p : Pin) (l : Level) : pinLatch (drivePins ps p l) p = some l := by
  cases p <;> rfl

theorem pinLatch_drivePins_ne (ps : Pins) {p q : Pin} (h : q ≠ p) (l : Level) :
    pinLatch (drivePins ps p l) q = pinLatch ps q := by
  cases p <;> cases q <;> first | rfl | exact absurd rfl h

end Sys2Proof.Machine
end

