-- ==== Sys2Proof/Laws/Ops.lean ====
section
/-! SUPPORT. What each shared operation over the state can do, said once: levels and chip selects, issuing, admission. -/

namespace Sys2Proof.Machine

/-! ### Levels and chip selects -/

@[simp] theorem Level.other_ne (l : Level) : l.other ≠ l := by cases l <;> decide

@[simp] theorem Level.ne_other (l : Level) : l ≠ l.other := fun h => Level.other_ne l h.symm

theorem Level.eq_other_of_ne {a b : Level} (h : a ≠ b) : a = b.other := by
  cases a <;> cases b <;> first | rfl | exact absurd rfl h

@[simp] theorem csInactive_ne : Config.csInactive ≠ Config.csActive := Level.other_ne _

@[simp] theorem csActive_ne : Config.csActive ≠ Config.csInactive := Level.ne_other _

@[simp] theorem pinLatch_csPin_master (ps : Pins) : pinLatch ps (csPin .master) = ps.csM := rfl

@[simp] theorem pinLatch_csPin_slave (ps : Pins) : pinLatch ps (csPin .slave) = ps.csS := rfl

theorem selected_iff (ps : Pins) (p : Panel) :
    selected ps p = true ↔ pinLatch ps (csPin p) = some Config.csActive := by
  simp [selected]

theorem selected_of_active {ps : Pins} {p : Panel} (h : pinLatch ps (csPin p) = some Config.csActive) :
    selected ps p = true := (selected_iff ps p).2 h

theorem not_selected_of_inactive {ps : Pins} {p : Panel} (h : pinLatch ps (csPin p) = some Config.csInactive) :
    selected ps p = false := by
  simp [selected, h]

theorem nsel_eq_zero_iff (ps : Pins) : nsel ps = 0 ↔ selected ps .master = false ∧ selected ps .slave = false := by
  unfold nsel
  cases selected ps .master <;> cases selected ps .slave <;> simp

theorem nsel_ne_zero_of_selected {ps : Pins} {p : Panel} (h : selected ps p = true) : nsel ps ≠ 0 := by
  rw [Ne, nsel_eq_zero_iff]
  cases p <;> simp [h]

/-- `PIXDATA`'s condition in terms of the two selects. -/
theorem pixelAllowed_some_iff (ps : Pins) (p : Panel) :
    pixelAllowed (some p) ps = true ↔ selected ps p = true ∧ selected ps (otherPanel p) = false := by
  cases p <;> simp only [pixelAllowed, nsel, otherPanel] <;>
    cases selected ps .master <;> cases selected ps .slave <;> decide

@[simp] theorem pixelAllowed_none (ps : Pins) : pixelAllowed none ps = false := rfl

/-! ### Issuing -/

@[simp] theorem issueState_none (p : List MicroOp) (s : State) : issueState none p s = setProg p s := rfl

@[simp] theorem issueState_some (f : FaultCode) (p : List MicroOp) (s : State) : issueState (some f) p s = raise f s := rfl

/-- On an idle block an operation's issue always answers a next state (R123). -/
theorem issue_idle {s : State} (hp : s.prog = []) (hf : s.fault = none) (a : Option FaultCode) (p : List MicroOp) :
    issue a p s = .next (issueState a p s) := by
  simp [issue, hp, hf]

/-- Everything an issue that answers a next state can have done. -/
theorem issue_next {a : Option FaultCode} {p : List MicroOp} {s t : State} (h : issue a p s = .next t) :
    s.prog = [] ∧ s.fault = none ∧ ((∃ f, a = some f ∧ t = raise f s) ∨ (a = none ∧ t = setProg p s)) := by
  unfold issue at h
  split at h
  · cases h
  · rename_i hf
    split at h
    · cases h
    · rename_i hp
      cases a with
      | none => cases h; exact ⟨hp, hf, .inr ⟨rfl, rfl⟩⟩
      | some f => cases h; exact ⟨hp, hf, .inl ⟨f, rfl, rfl⟩⟩

theorem issue_faulted {s : State} {f : FaultCode} (hf : s.fault = some f) (a : Option FaultCode) (p : List MicroOp) :
    issue a p s = .fault (.halted f) := by
  simp [issue, hf]

/-! ### Admission -/

theorem frameFault_closed_eq_none (fr : Option Panel) : frameFault .closed fr = none ↔ fr = none := by
  cases fr <;> simp [frameFault]

theorem frameFault_closedUnnamed_eq_none (fr : Option Panel) : frameFault .closedUnnamed fr = none ↔ fr = none := by
  cases fr <;> simp [frameFault]

theorem frameFault_openFor_eq_none (p : Panel) (fr : Option Panel) :
    frameFault (.openFor p) fr = none ↔ fr = some p := by
  cases fr with
  | none => simp [frameFault]
  | some q => by_cases h : q = p <;> simp [frameFault, h]

/-- An operation is admitted exactly when every column of its row is met (R140). -/
theorem admitRow_eq_none (r : AdmitRow) (s : State) :
    admitRow r s = none ↔
      (r.needsPower = true → powered s.pin = true) ∧ s.life ∈ r.lives ∧ frameFault r.frame s.frame = none := by
  unfold admitRow
  cases hn : r.needsPower <;> cases hp : powered s.pin <;> by_cases hl : s.life ∈ r.lives <;> simp [hl]

theorem faultIf_eq_none (c : Bool) (f : FaultCode) : faultIf c f = none ↔ c = false := by
  cases c <;> simp [faultIf]

/-- A line passes the further checks exactly when its length is 300, the frame is not full and every byte is valid
(R173). -/
theorem lineFault_eq_none (bs : List Byte) (lines : Nat) :
    lineFault bs lines = none ↔
      bs.length = Config.lineBytes ∧ lines ≠ Config.panelH ∧ bs.all validByte = true := by
  simp [lineFault, Option.or_eq_none_iff, faultIf_eq_none, and_assoc]

/-! ### The dispatch -/

/-- Every operation is an issue of its admission and its expansion (R123). -/
theorem exec_eq_issue (i : Instr) (s : State) : exec i s = issue (admission i s) (expand i) s := by
  cases i <;> rfl

end Sys2Proof.Machine
end

