-- ==== Sys2Proof/Laws/Step.lean ====
section
/-! SUPPORT. What a micro step, a host step and a step can do, said once, and how runs compose. -/

namespace Sys2Proof.Machine

/-! ### Micro steps -/

theorem microCmd_of_selected {s : State} (h : nsel s.pin ≠ 0) (b : Byte) : microCmd b s = emit (.byte .cmd b) s :=
  if_neg h

theorem microParam_of_selected {s : State} (h : nsel s.pin ≠ 0) (b : Byte) : microParam b s = emit (.byte .data b) s :=
  if_neg h

theorem microPixData_of_allowed {s : State} (h : pixelAllowed s.frame s.pin = true) (b : Byte) :
    microPixData b s = emit (.byte .data b) s :=
  if_pos h

theorem microWaitBusy_busy (rest : List MicroOp) (s : State) :
    microWaitBusy Config.busyActive rest s =
      { s with
        draws := s.draws + 1
        trace := s.trace ++ [.sampleBusy Config.busyActive] ++ [.delay Config.tPollMs]
        prog := .waitBusy :: rest } := by
  simp [microWaitBusy, emit, setProg]

theorem microWaitBusy_clear {l : Level} (h : l ≠ Config.busyActive) (rest : List MicroOp) (s : State) :
    microWaitBusy l rest s =
      { s with
        draws := s.draws + 1
        trace := s.trace ++ [.sampleBusy l] ++ [.delay Config.tSettleMs]
        prog := rest } := by
  simp [microWaitBusy, h, emit, setProg]

/-- `CMD` in terms of the state it starts from. -/
theorem microStep_cmd (l : Level) (b : Byte) (rest : List MicroOp) (s : State) :
    microStep l (.cmd b) rest s =
      if nsel s.pin = 0 then raise .noTarget s else emit (.byte .cmd b) (setProg rest s) := by
  by_cases h : nsel s.pin = 0 <;> simp [microStep, microCmd, h, raise, setProg]

/-- `PARAM` in terms of the state it starts from. -/
theorem microStep_param (l : Level) (b : Byte) (rest : List MicroOp) (s : State) :
    microStep l (.param b) rest s =
      if nsel s.pin = 0 then raise .noTarget s else emit (.byte .data b) (setProg rest s) := by
  by_cases h : nsel s.pin = 0 <;> simp [microStep, microParam, h, raise, setProg]

/-- `PIXDATA` in terms of the state it starts from. -/
theorem microStep_pixData (l : Level) (b : Byte) (rest : List MicroOp) (s : State) :
    microStep l (.pixData b) rest s =
      if pixelAllowed s.frame s.pin = true then emit (.byte .data b) (setProg rest s) else raise .csConflict s := by
  by_cases h : pixelAllowed s.frame s.pin = true <;> simp [microStep, microPixData, h, raise, setProg]

/-- `WAITBUSY` in terms of the state it starts from. -/
theorem microStep_waitBusy (l : Level) (rest : List MicroOp) (s : State) :
    microStep l .waitBusy rest s =
      if l = Config.busyActive then
        { s with
          draws := s.draws + 1
          trace := s.trace ++ [.sampleBusy l] ++ [.delay Config.tPollMs]
          prog := .waitBusy :: rest }
      else
        { s with
          draws := s.draws + 1
          trace := s.trace ++ [.sampleBusy l] ++ [.delay Config.tSettleMs]
          prog := rest } := by
  by_cases h : l = Config.busyActive
  · subst h; rw [if_pos rfl]; exact microWaitBusy_busy rest s
  · rw [if_neg h]; exact microWaitBusy_clear h rest s

/-- No micro step touches the host program. -/
theorem microStep_hostOps (l : Level) (m : MicroOp) (rest : List MicroOp) (s : State) :
    (microStep l m rest s).hostOps = s.hostOps := by
  cases m with
  | cmd b => rw [microStep_cmd]; by_cases h : nsel s.pin = 0 <;> simp [h]
  | param b => rw [microStep_param]; by_cases h : nsel s.pin = 0 <;> simp [h]
  | pixData b => rw [microStep_pixData]; by_cases h : pixelAllowed s.frame s.pin = true <;> simp [h]
  | waitBusy => rw [microStep_waitBusy]; by_cases h : l = Config.busyActive <;> simp [h]
  | setPin p v => rfl
  | delay n => rfl
  | setLife v => rfl
  | setFrame f => rfl
  | incLine => rfl

/-- What a micro step leaves of the micro-program, the fault register and the trace: a fault of its own with the micro-program
emptied, or no fault with the rest left (all of it for a busy sample) and at most two events appended. -/
theorem microStep_cases (l : Level) (m : MicroOp) (rest : List MicroOp) (s : State) :
    ((∃ f, (f = .noTarget ∨ f = .csConflict) ∧ microStep l m rest s = raise f s)) ∨
    ((microStep l m rest s).fault = s.fault ∧
      ((microStep l m rest s).prog = rest ∨
        (m = .waitBusy ∧ l = Config.busyActive ∧ (microStep l m rest s).prog = .waitBusy :: rest)) ∧
      ∃ es, (microStep l m rest s).trace = s.trace ++ es ∧ es.length ≤ 2) := by
  cases m with
  | setPin p v => exact .inr ⟨rfl, .inl rfl, [_], rfl, by simp⟩
  | cmd b =>
    by_cases h : nsel s.pin = 0
    · exact .inl ⟨.noTarget, .inl rfl, by simp [microStep, microCmd, h, raise, setProg]⟩
    · exact .inr ⟨by simp [microStep, microCmd, h], .inl (by simp [microStep, microCmd, h]), [.byte .cmd b],
        by simp [microStep, microCmd, h], by simp⟩
  | param b =>
    by_cases h : nsel s.pin = 0
    · exact .inl ⟨.noTarget, .inl rfl, by simp [microStep, microParam, h, raise, setProg]⟩
    · exact .inr ⟨by simp [microStep, microParam, h], .inl (by simp [microStep, microParam, h]), [.byte .data b],
        by simp [microStep, microParam, h], by simp⟩
  | pixData b =>
    by_cases h : pixelAllowed s.frame s.pin = true
    · exact .inr ⟨by simp [microStep, microPixData, h], .inl (by simp [microStep, microPixData, h]), [.byte .data b],
        by simp [microStep, microPixData, h], by simp⟩
    · exact .inl ⟨.csConflict, .inr rfl, by simp [microStep, microPixData, h, raise, setProg]⟩
  | delay n => exact .inr ⟨rfl, .inl rfl, [_], rfl, by simp⟩
  | setLife v => exact .inr ⟨rfl, .inl rfl, [], by simp [microStep], by simp⟩
  | setFrame f => exact .inr ⟨rfl, .inl rfl, [], by simp [microStep], by simp⟩
  | incLine => exact .inr ⟨rfl, .inl rfl, [], by simp [microStep], by simp⟩
  | waitBusy =>
    by_cases h : l = Config.busyActive
    · subst h
      refine .inr ⟨?_, .inr ⟨rfl, rfl, ?_⟩, [.sampleBusy Config.busyActive, .delay Config.tPollMs], ?_, by simp⟩ <;>
        simp only [microStep, microWaitBusy_busy, List.append_assoc, List.cons_append, List.nil_append]
    · refine .inr ⟨?_, .inl ?_, [.sampleBusy l, .delay Config.tSettleMs], ?_, by simp⟩ <;>
        simp only [microStep, microWaitBusy_clear h, List.append_assoc, List.cons_append, List.nil_append]

/-- Where the dry run of a micro-op succeeds, the micro step raises no fault and its registers and latches are the dry
run's. -/
theorem microStep_of_dryOp {s : State} {h : Shadow} (l : Level) (m : MicroOp) (rest : List MicroOp)
    (hd : dryOp m (shadowOf s) = some h) :
    shadowOf (microStep l m rest s) = h ∧ (microStep l m rest s).fault = s.fault := by
  cases m with
  | setPin p v => cases hd; exact ⟨rfl, rfl⟩
  | cmd b =>
    by_cases hn : nsel s.pin = 0
    · simp [dryOp, shadowOf, hn] at hd
    · simp only [dryOp, shadowOf, hn, if_false, Option.some.injEq] at hd
      rw [microStep, microCmd_of_selected (by simpa using hn)]
      exact ⟨hd, rfl⟩
  | param b =>
    by_cases hn : nsel s.pin = 0
    · simp [dryOp, shadowOf, hn] at hd
    · simp only [dryOp, shadowOf, hn, if_false, Option.some.injEq] at hd
      rw [microStep, microParam_of_selected (by simpa using hn)]
      exact ⟨hd, rfl⟩
  | pixData b =>
    by_cases ha : pixelAllowed s.frame s.pin = true
    · simp only [dryOp, shadowOf, ha, if_true, Option.some.injEq] at hd
      rw [microStep, microPixData_of_allowed (by simpa using ha)]
      exact ⟨hd, rfl⟩
    · simp [dryOp, shadowOf, ha] at hd
  | delay n => cases hd; exact ⟨rfl, rfl⟩
  | setLife v => cases hd; exact ⟨rfl, rfl⟩
  | setFrame f => cases hd; exact ⟨rfl, rfl⟩
  | incLine =>
    by_cases hn : s.lines < 1600
    · simp only [dryOp, shadowOf, hn, if_true, Option.some.injEq] at hd
      exact ⟨hd, rfl⟩
    · simp [dryOp, shadowOf, hn] at hd
  | waitBusy =>
    cases hd
    by_cases hl : l = Config.busyActive
    · subst hl
      simp only [microStep, microWaitBusy_busy]
      exact ⟨rfl, trivial⟩
    · simp only [microStep, microWaitBusy_clear hl]
      exact ⟨rfl, trivial⟩

theorem dryRun_append (p q : List MicroOp) (h : Shadow) : dryRun (p ++ q) h = (dryRun p h).bind (dryRun q) := by
  induction p generalizing h with
  | nil => rfl
  | cons m p ih =>
    simp only [List.cons_append, dryRun]
    cases dryOp m h with
    | none => rfl
    | some h' => exact ih h'

/-! ### Steps -/

theorem stepWith_faulted (draw : Nat → Level) {s : State} {f : FaultCode} (h : s.fault = some f) :
    stepWith draw s = .fault (.halted f) := by
  simp [stepWith, h]

theorem stepWith_busy (draw : Nat → Level) {s : State} (hf : s.fault = none) {m : MicroOp} {rest : List MicroOp}
    (hp : s.prog = m :: rest) : stepWith draw s = .next (microStep (draw s.draws) m rest s) := by
  simp [stepWith, hf, hp]

theorem stepWith_idle (draw : Nat → Level) {s : State} (hf : s.fault = none) (hp : s.prog = []) :
    stepWith draw s = idleStep s := by
  simp [stepWith, hf, hp]

/-- Every step that answers a next state: a micro step, the wait of an idle block, a decode fault, an admission fault, or
the issue of an operation. -/
theorem stepWith_next {draw : Nat → Level} {s t : State} (h : stepWith draw s = .next t) :
    s.fault = none ∧
    ((∃ m rest, s.prog = m :: rest ∧ t = microStep (draw s.draws) m rest s) ∨
     (s.prog = [] ∧ s.hostOps = [] ∧ t = s) ∨
     (s.prog = [] ∧ ∃ op more, s.hostOps = op :: more ∧
        ((∃ f, decode op.word op.operand = .error f ∧ t = raise f { s with hostOps := more }) ∨
         (∃ i, decode op.word op.operand = .ok i ∧
            ((∃ f, admission i { s with hostOps := more } = some f ∧ t = raise f { s with hostOps := more }) ∨
             (admission i { s with hostOps := more } = none ∧ t = setProg (expand i) { s with hostOps := more })))))) := by
  unfold stepWith at h
  split at h
  · cases h
  · rename_i hf
    refine ⟨hf, ?_⟩
    split at h
    · rename_i m rest hp
      cases h
      exact .inl ⟨m, rest, hp, rfl⟩
    · rename_i hp
      unfold idleStep at h
      split at h
      · rename_i ho
        cases h
        exact .inr (.inl ⟨hp, ho, rfl⟩)
      · rename_i op more ho
        refine .inr (.inr ⟨hp, op, more, ho, ?_⟩)
        unfold hostStep at h
        split at h
        · rename_i f hd
          cases h
          exact .inl ⟨f, hd, rfl⟩
        · rename_i i hd
          rw [exec_eq_issue] at h
          obtain ⟨-, -, hc⟩ := issue_next h
          exact .inr ⟨i, hd, hc⟩

/-! ### Runs -/

@[simp] theorem runWith_zero (draw : Nat → Level) (s : State) : runWith draw 0 s = .next s := rfl

theorem runWith_succ_of_next {draw : Nat → Level} {s t : State} (h : stepWith draw s = .next t) (n : Nat) :
    runWith draw (n + 1) s = runWith draw n t := by
  simp [runWith, h]

/-- A run of `m + n` steps whose first `m` reach `t` goes on as the run of `n` steps from `t`. -/
theorem runWith_add {draw : Nat → Level} {m n : Nat} {s t : State} (h : runWith draw m s = .next t) :
    runWith draw (m + n) s = runWith draw n t := by
  induction m generalizing s with
  | zero => cases h; simp
  | succ m ih =>
    rw [Nat.succ_add]
    cases hs : stepWith draw s with
    | next u =>
      rw [runWith_succ_of_next hs] at h ⊢
      exact ih h
    | fault f => simp [runWith, hs] at h
    | refused r => simp [runWith, hs] at h

/-- The host's runs are runs with the configuration's oracle. -/
theorem core_run_eq_runWith (n : Nat) (s : State) :
    Host.Core.run Sys2Proof.core n s = runWith Config.busyDraw n s := by
  induction n generalizing s with
  | zero => rfl
  | succ n ih =>
    refine (Host.Core.run.eq_2 Sys2Proof.core s n).trans ?_
    cases hs : stepWith Config.busyDraw s with
    | next t =>
      have hc : Sys2Proof.core.step s = .next t := hs
      rw [hc, runWith_succ_of_next hs]
      exact ih t
    | fault f =>
      have hc : Sys2Proof.core.step s = .fault f := hs
      rw [hc, runWith, hs]; rfl
    | refused r =>
      have hc : Sys2Proof.core.step s = .refused r := hs
      rw [hc, runWith, hs]; rfl

end Sys2Proof.Machine
end

