-- ==== Sys2Proof/Laws/Run.lean ====
section
/-! SUPPORT. What a run does with each building block of a micro-program, said once: a pin write, a command frame, the bytes
of a line, a busy wait, and the issue of an operation. -/

namespace Sys2Proof.Machine

variable {draw : Nat → Level}

/-! ### Reaching -/

theorem Reaches.refl (s : State) : Reaches draw s s := ⟨0, rfl⟩

theorem Reaches.trans {s t u : State} (h : Reaches draw s t) (h' : Reaches draw t u) : Reaches draw s u := by
  obtain ⟨m, hm⟩ := h
  obtain ⟨n, hn⟩ := h'
  exact ⟨m + n, (runWith_add hm).trans hn⟩

theorem Reaches.of_step {s t : State} (h : stepWith draw s = .next t) : Reaches draw s t :=
  ⟨1, by rw [runWith_succ_of_next h]; rfl⟩

/-- A micro step is a run of one step. -/
theorem Reaches.of_micro {s : State} (hf : s.fault = none) {m : MicroOp} {rest : List MicroOp} (hp : s.prog = m :: rest) :
    Reaches draw s (microStep (draw s.draws) m rest s) :=
  .of_step (stepWith_busy draw hf hp)

/-- An offered operation that is admitted is issued by one step. -/
theorem Reaches.of_offered {s : State} {i : Instr} (hs : s.Idle) (more : List HostOp)
    (hd : decode (encode i).word (encode i).operand = .ok i) (ha : admission i { s with hostOps := more } = none) :
    Reaches draw (s.offered i more) { s with hostOps := more, prog := expand i } := by
  refine .of_step ?_
  rw [stepWith_idle draw (s := s.offered i more) hs.2 hs.1]
  simp only [idleStep, State.offered, hostStep, hd]
  rw [exec_eq_issue, issue_idle (s := { s with hostOps := more }) hs.1 hs.2, ha]
  rfl

/-- A run that has reached a final block stays there. -/
theorem stepWith_final {t : State} (ht : t.Final) : stepWith draw t = .next t := by
  rw [stepWith_idle draw ht.2.2 ht.2.1, idleStep, ht.1]

theorem runWith_final {t : State} (ht : t.Final) (n : Nat) : runWith draw n t = .next t := by
  induction n with
  | zero => rfl
  | succ n ih => rw [runWith_succ_of_next (stepWith_final ht)]; exact ih

/-! ### The blocks of a micro-program, each before a rest `q` -/

section Blocks

variable (s : State) (q : List MicroOp)

theorem reaches_setPin (hf : s.fault = none) (p : Pin) (l : Level) (hp : s.prog = .setPin p l :: q) :
    Reaches draw s { s with prog := q, pin := drivePins s.pin p l, trace := s.trace ++ [.setPin p l] } :=
  .of_micro hf hp

theorem reaches_delay (hf : s.fault = none) (n : Nat) (hp : s.prog = .delay n :: q) :
    Reaches draw s { s with prog := q, trace := s.trace ++ [.delay n] } :=
  .of_micro hf hp

theorem reaches_setLife (hf : s.fault = none) (l : Life) (hp : s.prog = .setLife l :: q) :
    Reaches draw s { s with prog := q, life := l } :=
  .of_micro hf hp

theorem reaches_setFrame (hf : s.fault = none) (f : Option Panel) (hp : s.prog = .setFrame f :: q) :
    Reaches draw s { s with prog := q, frame := f, lines := 0 } :=
  .of_micro hf hp

theorem reaches_incLine (hf : s.fault = none) (hp : s.prog = .incLine :: q) :
    Reaches draw s { s with prog := q, lines := s.lines + 1 } :=
  .of_micro hf hp

theorem reaches_cmd (hf : s.fault = none) (hn : nsel s.pin ≠ 0) (b : Byte) (hp : s.prog = .cmd b :: q) :
    Reaches draw s { s with prog := q, trace := s.trace ++ [.byte .cmd b] } := by
  refine (Reaches.of_micro hf hp).trans ?_
  rw [microStep, microCmd_of_selected (by simpa using hn)]
  exact .refl _

/-- The payload bytes of a command, in order. -/
theorem reaches_params (hf : s.fault = none) (hn : nsel s.pin ≠ 0) (ps : List Byte)
    (hp : s.prog = ps.map .param ++ q) :
    Reaches draw s { s with prog := q, trace := s.trace ++ ps.map (.byte .data) } := by
  induction ps generalizing s with
  | nil =>
    obtain rfl : s.prog = q := hp
    simpa using Reaches.refl s
  | cons b ps ih =>
    refine (Reaches.of_micro hf hp).trans ?_
    rw [microStep, microParam_of_selected (by simpa using hn)]
    have := ih (emit (.byte .data b) (setProg (ps.map .param ++ q) s)) (by simpa using hf) (by simpa using hn) rfl
    simpa [emit, setProg, List.append_assoc] using this

/-- The pixel bytes of a line, in order, where the frame's chip select alone is asserted. -/
theorem reaches_pixels (hf : s.fault = none) (ha : pixelAllowed s.frame s.pin = true) (bs : List Byte)
    (hp : s.prog = bs.map .pixData ++ q) :
    Reaches draw s { s with prog := q, trace := s.trace ++ bs.map (.byte .data) } := by
  induction bs generalizing s with
  | nil =>
    obtain rfl : s.prog = q := hp
    simpa using Reaches.refl s
  | cons b bs ih =>
    refine (Reaches.of_micro hf hp).trans ?_
    rw [microStep, microPixData_of_allowed (by simpa using ha)]
    have := ih (emit (.byte .data b) (setProg (bs.map .pixData ++ q) s)) (by simpa using hf) (by simpa using ha) rfl
    simpa [emit, setProg, List.append_assoc] using this

end Blocks

/-! ### A command frame -/

/-- The latches with the pins of a target driven to a level. -/
def driveTarget (ps : Pins) (t : Target) (l : Level) : Pins :=
  (targetPins t).foldl (fun ps p => drivePins ps p l) ps

theorem reaches_pinWrites (ws : List Pin) (l : Level) (s : State) (q : List MicroOp) (hf : s.fault = none)
    (hp : s.prog = ws.map (fun p => .setPin p l) ++ q) :
    Reaches draw s
      { s with
        prog := q
        pin := ws.foldl (fun ps p => drivePins ps p l) s.pin
        trace := s.trace ++ ws.map fun p => .setPin p l } := by
  induction ws generalizing s with
  | nil =>
    obtain rfl : s.prog = q := hp
    simpa using Reaches.refl s
  | cons w ws ih =>
    refine (reaches_setPin s _ hf w l hp).trans ?_
    have := ih { s with
      prog := ws.map (fun p => .setPin p l) ++ q
      pin := drivePins s.pin w l
      trace := s.trace ++ [.setPin w l] } hf rfl
    simpa [List.append_assoc] using this

theorem nsel_driveTarget (ps : Pins) (t : Target) : nsel (driveTarget ps t Config.csActive) ≠ 0 := by
  cases t with
  | master => exact nsel_ne_zero_of_selected (p := .master) (selected_of_active rfl)
  | slave => exact nsel_ne_zero_of_selected (p := .slave) (selected_of_active rfl)
  | both => exact nsel_ne_zero_of_selected (p := .master) (selected_of_active rfl)

theorem targetPins_select (t : Target) : ((targetPins t).map fun p => Event.setPin p Config.csActive) = selectEvents t := by
  cases t <;> rfl

theorem targetPins_deselect (t : Target) :
    ((targetPins t).map fun p => Event.setPin p Config.csInactive) = deselectEvents t := by
  cases t <;> rfl

/-- A command frame emits its framing (R88) and leaves its target's chip selects inactive. -/
theorem reaches_cmdFrame (s : State) (q : List MicroOp) (hf : s.fault = none) (t : Target) (c : Byte) (ps : List Byte)
    (hp : s.prog = cmdFrame t c ps ++ q) :
    Reaches draw s
      { s with
        prog := q
        pin := driveTarget (driveTarget s.pin t Config.csActive) t Config.csInactive
        trace := s.trace ++ commandFrameEvents t c ps } := by
  have hp1 : s.prog = (targetPins t).map (fun p => .setPin p Config.csActive) ++
      (.cmd c :: (ps.map .param ++ ((targetPins t).map (fun p => .setPin p Config.csInactive) ++ q))) := by
    rw [hp]; simp [cmdFrame, selectProg, deselectProg]
  refine (reaches_pinWrites _ _ s _ hf hp1).trans ?_
  refine (reaches_cmd _ _ (by exact hf) (by exact nsel_driveTarget s.pin t) c rfl).trans ?_
  refine (reaches_params _ _ (by exact hf) (by exact nsel_driveTarget s.pin t) ps rfl).trans ?_
  refine (reaches_pinWrites (targetPins t) Config.csInactive _ q (by exact hf) rfl).trans ?_
  rw [targetPins_select, targetPins_deselect]
  simpa [commandFrameEvents, List.append_assoc, driveTarget] using Reaches.refl _

theorem driveTarget_both (ps : Pins) :
    driveTarget (driveTarget ps .both Config.csActive) .both Config.csInactive =
      { ps with csM := some Config.csInactive, csS := some Config.csInactive } := rfl

/-- On latches that are both inactive a command frame leaves them as they were. -/
theorem driveTarget_of_bothInactive {ps : Pins} (h : ps.BothInactive) (t : Target) :
    driveTarget (driveTarget ps t Config.csActive) t Config.csInactive = ps := by
  obtain ⟨h1, h2⟩ := h
  cases ps
  cases t <;> simp_all [driveTarget, targetPins, drivePins]

/-! ### A busy wait -/

/-- A busy wait that draws `k` busy levels and then one that is not busy (R120). -/
theorem reaches_waitBusy (k : Nat) (s : State) (q : List MicroOp) (hf : s.fault = none) (hp : s.prog = .waitBusy :: q)
    (hk : BusyFor draw s.draws k) :
    Reaches draw s { s with prog := q, draws := s.draws + k + 1, trace := s.trace ++ busyWaitEvents k } := by
  induction k generalizing s with
  | zero =>
    refine (Reaches.of_micro hf hp).trans ?_
    have h0 : draw s.draws ≠ Config.busyActive := hk.2
    rw [microStep, microWaitBusy_clear h0, Level.eq_other_of_ne h0]
    simpa [busyWaitEvents, pollEvents, List.append_assoc] using Reaches.refl _
  | succ k ih =>
    refine (Reaches.of_micro hf hp).trans ?_
    have h0 : draw s.draws = Config.busyActive := hk.1 0 (Nat.succ_pos k)
    rw [microStep, h0, microWaitBusy_busy]
    have hk' : BusyFor draw (s.draws + 1) k :=
      ⟨fun j hj => by
        have := hk.1 (j + 1) (Nat.succ_lt_succ hj)
        rwa [show s.draws + 1 + j = s.draws + (j + 1) by omega],
       by
        have := hk.2
        rwa [show s.draws + 1 + k = s.draws + (k + 1) by omega]⟩
    have := ih { s with
      draws := s.draws + 1
      trace := s.trace ++ [.sampleBusy Config.busyActive] ++ [.delay Config.tPollMs]
      prog := .waitBusy :: q } hf rfl hk'
    rw [show s.draws + (k + 1) + 1 = s.draws + 1 + k + 1 by omega]
    simpa [busyWaitEvents, pollEvents, List.append_assoc] using this

end Sys2Proof.Machine
end

