-- ==== Sys2Proof/Laws/Blocks.lean ====
section
/-! SUPPORT. What a run, and a dry run, do with the blocks that the operations share: opening and closing a frame, the lines
of a half, the refresh program and the sleep program. -/

namespace Sys2Proof.Machine

variable {draw : Nat → Level}

/-! ### The latches around a frame -/

/-- The latches after `beginProg p`. -/
def frameOpenPins (p : Panel) (ps : Pins) : Pins :=
  match p with
  | .master => { ps with csM := some Config.csActive }
  | .slave => { ps with csM := some Config.csInactive, csS := some Config.csActive }

/-- The latches after `endProg p`. -/
def frameClosePins (p : Panel) (ps : Pins) : Pins :=
  match p with
  | .master => { ps with csM := some Config.csInactive }
  | .slave => { ps with csS := some Config.csInactive }

theorem nsel_frameOpenPins (p : Panel) (ps : Pins) : nsel (frameOpenPins p ps) ≠ 0 := by
  cases p with
  | master => exact nsel_ne_zero_of_selected (p := .master) (selected_of_active rfl)
  | slave => exact nsel_ne_zero_of_selected (p := .slave) (selected_of_active rfl)

/-- Opening a frame on two deasserted selects leaves exactly the frame's select asserted. -/
theorem pixelAllowed_frameOpenPins (p : Panel) {ps : Pins}
    (hs : selected ps .slave = false) : pixelAllowed (some p) (frameOpenPins p ps) = true := by
  rw [pixelAllowed_some_iff]
  cases p with
  | master => exact ⟨selected_of_active rfl, hs⟩
  | slave => exact ⟨selected_of_active rfl, not_selected_of_inactive rfl⟩

/-- Closing the frame leaves both selects deasserted. -/
theorem frameClosePins_frameOpenPins (p : Panel) {ps : Pins} (hs : selected ps .slave = false) :
    selected (frameClosePins p (frameOpenPins p ps)) .master = false ∧
      selected (frameClosePins p (frameOpenPins p ps)) .slave = false := by
  cases p with
  | master => exact ⟨not_selected_of_inactive rfl, hs⟩
  | slave => exact ⟨not_selected_of_inactive rfl, not_selected_of_inactive rfl⟩

theorem bothInactive_not_selected {ps : Pins} (h : ps.BothInactive) :
    selected ps .master = false ∧ selected ps .slave = false :=
  ⟨not_selected_of_inactive h.1, not_selected_of_inactive h.2⟩

/-! ### Runs -/

theorem reaches_beginProg (p : Panel) (s : State) (q : List MicroOp) (hf : s.fault = none)
    (hp : s.prog = beginProg p ++ q) :
    Reaches draw s
      { s with
        prog := q
        life := .streaming
        frame := some p
        lines := 0
        pin := frameOpenPins p s.pin
        trace := s.trace ++ frameOpenEvents p } := by
  have hn := nsel_frameOpenPins p s.pin
  refine (reaches_setLife s _ hf _ (by rw [hp]; simp only [beginProg, List.append_assoc]; rfl)).trans ?_
  refine (reaches_setFrame _ _ (by exact hf) _ rfl).trans ?_
  cases p with
  | master =>
    refine (reaches_setPin _ _ (by exact hf) _ _ rfl).trans ?_
    refine (reaches_cmd _ q (by exact hf) (by exact hn) _ rfl).trans ?_
    simpa [frameOpenPins, frameOpenEvents, csPin, drivePins] using Reaches.refl _
  | slave =>
    refine (reaches_setPin _ _ (by exact hf) _ _ rfl).trans ?_
    refine (reaches_setPin _ _ (by exact hf) _ _ rfl).trans ?_
    refine (reaches_cmd _ q (by exact hf) (by exact hn) _ rfl).trans ?_
    simpa [frameOpenPins, frameOpenEvents, csPin, drivePins] using Reaches.refl _

theorem reaches_endProg (p : Panel) (s : State) (q : List MicroOp) (hf : s.fault = none)
    (hp : s.prog = endProg p ++ q) :
    Reaches draw s
      { s with
        prog := q
        frame := none
        lines := 0
        pin := frameClosePins p s.pin
        trace := s.trace ++ frameCloseEvents p } := by
  refine (reaches_setPin s _ hf _ _ hp).trans ?_
  refine (reaches_setFrame _ q (by exact hf) _ rfl).trans ?_
  cases p <;> simpa [frameClosePins, frameCloseEvents, csPin, drivePins] using Reaches.refl _

/-- One line: its bytes, then the count. -/
theorem reaches_lineProg (bs : List Byte) (s : State) (q : List MicroOp) (hf : s.fault = none)
    (ha : pixelAllowed s.frame s.pin = true) (hp : s.prog = lineProg bs ++ q) :
    Reaches draw s { s with prog := q, lines := s.lines + 1, trace := s.trace ++ bs.map (.byte .data) } := by
  refine (reaches_pixels s ([.incLine] ++ q) hf ha bs (by rw [hp]; simp [lineProg])).trans ?_
  exact reaches_incLine _ q (by exact hf) rfl

theorem reaches_sleepProg (s : State) (q : List MicroOp) (hf : s.fault = none) (hp : s.prog = sleepProg ++ q) :
    Reaches draw s
      { s with
        prog := q
        life := .sleeping
        pin := { s.pin with csM := some Config.csInactive, csS := some Config.csInactive }
        trace := s.trace ++ sleepEvents } := by
  refine (reaches_cmdFrame s ([.delay Config.tSleepMs, .setLife .sleeping] ++ q) hf .both Config.cmdDslp
    [Config.dslpMagic] (by rw [hp, sleepProg, List.append_assoc])).trans ?_
  refine (reaches_delay _ _ (by exact hf) _ rfl).trans ?_
  refine (reaches_setLife _ q (by exact hf) _ rfl).trans ?_
  simp only [driveTarget_both]
  simpa [sleepEvents, List.append_assoc] using Reaches.refl _

/-- The refresh program with its two busy waits. -/
theorem reaches_refreshProg (s : State) (k1 k2 : Nat) (hf : s.fault = none) (hp : s.prog = refreshProg)
    (d1 : BusyFor draw s.draws k1) (d2 : BusyFor draw (s.draws + k1 + 1) k2) :
    Reaches draw s
      { s with
        prog := []
        life := .ready
        pin := { s.pin with csM := some Config.csInactive, csS := some Config.csInactive }
        trace := s.trace ++ refreshEvents k1 k2
        draws := s.draws + k1 + k2 + 2 } := by
  refine (reaches_setLife s _ hf _ (by rw [hp, refreshProg]; simp only [List.append_assoc]; rfl)).trans ?_
  refine (reaches_cmdFrame _ _ (by exact hf) .both Config.cmdPon Config.ponPayload rfl).trans ?_
  refine (reaches_waitBusy k1 _ _ (by exact hf) rfl (by exact d1)).trans ?_
  refine (reaches_cmdFrame _ _ (by exact hf) .both Config.cmdDrf Config.drfPayload rfl).trans ?_
  refine (reaches_waitBusy k2 _ _ (by exact hf) rfl (by exact d2)).trans ?_
  refine (reaches_cmdFrame _ _ (by exact hf) .both Config.cmdPof Config.pofPayload rfl).trans ?_
  refine (reaches_setLife _ [] (by exact hf) _ rfl).trans ?_
  simp only [driveTarget_both]
  rw [show s.draws + k1 + k2 + 2 = s.draws + k1 + 1 + k2 + 1 by omega]
  simpa [refreshEvents, List.append_assoc] using Reaches.refl _

/-! ### Dry runs -/

theorem dryRun_params (ps : List Byte) (h : Shadow) (hn : nsel h.pin ≠ 0) : dryRun (ps.map .param) h = some h := by
  induction ps with
  | nil => rfl
  | cons b ps ih => simp only [List.map_cons, dryRun, dryOp, if_neg hn, Option.bind_some]; exact ih

theorem dryRun_pinWrites (ws : List Pin) (l : Level) (h : Shadow) :
    dryRun (ws.map fun p => .setPin p l) h =
      some { h with pin := ws.foldl (fun ps p => drivePins ps p l) h.pin } := by
  induction ws generalizing h with
  | nil => rfl
  | cons w ws ih => simp only [List.map_cons, dryRun, dryOp, Option.bind_some]; rw [ih]; rfl

/-- A command frame raises no fault, whatever the latches. -/
theorem dryRun_cmdFrame (t : Target) (c : Byte) (ps : List Byte) (h : Shadow) :
    dryRun (cmdFrame t c ps) h =
      some { h with pin := driveTarget (driveTarget h.pin t Config.csActive) t Config.csInactive } := by
  have hn : nsel ((targetPins t).foldl (fun ps p => drivePins ps p Config.csActive) h.pin) ≠ 0 :=
    nsel_driveTarget h.pin t
  simp only [cmdFrame, selectProg, deselectProg, dryRun_append, dryRun_pinWrites, Option.bind_some, dryRun, dryOp]
  rw [if_neg hn]
  simp only [Option.bind_some]
  rw [dryRun_params _ _ (by exact hn)]
  rfl

theorem dryRun_pixels (bs : List Byte) (h : Shadow) (ha : pixelAllowed h.frame h.pin = true) :
    dryRun (bs.map .pixData) h = some h := by
  induction bs with
  | nil => rfl
  | cons b ps ih => simp only [List.map_cons, dryRun, dryOp, if_pos ha, Option.bind_some]; exact ih

theorem dryRun_lineProg (bs : List Byte) (h : Shadow) (ha : pixelAllowed h.frame h.pin = true) (hl : h.lines < 1600) :
    dryRun (lineProg bs) h = some { h with lines := h.lines + 1 } := by
  rw [lineProg, dryRun_append, dryRun_pixels _ _ ha]
  simp [dryRun, dryOp, hl]

theorem dryRun_beginProg (p : Panel) (h : Shadow) :
    dryRun (beginProg p) h =
      some { life := .streaming, frame := some p, lines := 0, pin := frameOpenPins p h.pin } := by
  have hn := nsel_frameOpenPins p h.pin
  cases p <;> simp only [frameOpenPins] at hn <;>
    simp [beginProg, dryRun, dryOp, csPin, drivePins, hn, frameOpenPins]

theorem dryRun_endProg (p : Panel) (h : Shadow) :
    dryRun (endProg p) h = some { h with frame := none, lines := 0, pin := frameClosePins p h.pin } := by
  cases p <;> rfl

theorem dryRun_refreshProg (h : Shadow) :
    dryRun refreshProg h =
      some { h with
        life := .ready
        pin := { h.pin with csM := some Config.csInactive, csS := some Config.csInactive } } := by
  simp only [refreshProg, dryRun_append, dryRun_cmdFrame, dryRun, dryOp, Option.bind_some]
  rfl

theorem dryRun_sleepProg (h : Shadow) :
    dryRun sleepProg h =
      some { h with
        life := .sleeping
        pin := { h.pin with csM := some Config.csInactive, csS := some Config.csInactive } } := by
  simp only [sleepProg, dryRun_append, dryRun_cmdFrame, dryRun, dryOp, Option.bind_some]
  rfl

end Sys2Proof.Machine
end

