-- ==== Sys2Proof/Laws/PerInstr.lean ====
section
/-! SUPPORT. The family of statements "the operation's word has the bits of its row of spec/opcode_table.json", one lemma for
each constructor of Instr. -/

namespace Sys2Proof.Laws.OpcodeRow

/-- The row's `match` of spec/opcode_table.json. -/
def rowMatch : Instr → OpWord
  | .reset => 0x1000
  | .initialise => 0x2000
  | .clear _ => 0x3000
  | .beginFrame _ => 0x4000
  | .writeLine _ _ => 0x5000
  | .endFrame _ => 0x6000
  | .refreshNow => 0x7000
  | .sleep => 0x8000
  | .powerOn => 0x9000
  | .powerOff => 0xA000
  | .streamImage _ => 0xB000

/-- The row's `mask`: all bits, but for `ARG` where the row leaves it to the operand. -/
def rowMask : Instr → OpWord
  | .reset => 0xFFFF
  | .initialise => 0xFFFF
  | .clear _ => 0xF0FF
  | .beginFrame _ => 0xF0FF
  | .writeLine _ _ => 0xF0FF
  | .endFrame _ => 0xF0FF
  | .refreshNow => 0xFFFF
  | .sleep => 0xFFFF
  | .powerOn => 0xFFFF
  | .powerOff => 0xFFFF
  | .streamImage _ => 0xFFFF

/-- The encoded word, under the row's mask, is the row's match. -/
def Statement (i : Instr) : Prop := (encode i).word &&& rowMask i = rowMatch i

theorem reset : Statement .reset := by unfold Statement; decide
theorem initialise : Statement .initialise := by unfold Statement; decide
theorem clear (c : PixelColor) : Statement (.clear c) := by unfold Statement; cases c <;> decide
theorem beginFrame (p : Panel) : Statement (.beginFrame p) := by unfold Statement; cases p <;> decide
theorem writeLine (p : Panel) (bs : List Byte) : Statement (.writeLine p bs) := by
  unfold Statement; simp only [encode, rowMask, rowMatch]; cases p <;> decide
theorem endFrame (p : Panel) : Statement (.endFrame p) := by unfold Statement; cases p <;> decide
theorem refreshNow : Statement .refreshNow := by unfold Statement; decide
theorem sleep : Statement .sleep := by unfold Statement; decide
theorem powerOn : Statement .powerOn := by unfold Statement; decide
theorem powerOff : Statement .powerOff := by unfold Statement; decide
theorem streamImage (img : Image) : Statement (.streamImage img) := by
  unfold Statement; simp only [encode, rowMask, rowMatch]; decide

end Sys2Proof.Laws.OpcodeRow
end

