-- ==== Sys2Proof/Tests/Slice0.lean ====
section
/-! SUPPORT. Small tests. Expected results are those of 95_test_vectors.md and of the rules named; a witness theorem meets, on
concrete data, all the hypotheses of the obligation it is named after. -/

namespace Sys2Proof.Machine

/-! ### Small states and oracles -/

/-- The reset state with a lifecycle state, an open frame and a line count. -/
def stateIn (l : Life) (f : Option Panel) (n : Nat) : State := { State.reset with life := l, frame := f, lines := n }

/-- The same with `PWR` high. -/
def poweredIn (l : Life) : State := { stateIn l none 0 with pin := { Pins.cleanStart with pwr := some .high } }

/-- The reset state with a micro-program and the chip selects at given levels. -/
def busyState (f : Option Panel) (m s : Level) (prog : List MicroOp) : State :=
  { State.reset with frame := f, prog := prog, pin := { Pins.cleanStart with csM := some m, csS := some s } }

/-- A streaming state with the panel's chip select asserted. -/
def streamingFor (p : Panel) (n : Nat) : State :=
  { stateIn .streaming (some p) n with pin := drivePins Pins.cleanStart (csPin p) Config.csActive }

/-- The reset state with the host program given. -/
def offering (ops : List HostOp) : State := { State.reset with hostOps := ops }

/-- The oracle that is never busy. -/
def neverBusy : Nat → Level := fun _ => Config.busyActive.other

/-- The oracle that is busy at draw 0 only. -/
def busyAtZero : Nat → Level := fun n => if n = 0 then Config.busyActive else Config.busyActive.other

/-- The oracle that is always busy. -/
def alwaysBusy : Nat → Level := fun _ => Config.busyActive

/-- A line of equal bytes. -/
def lineOf (n : Nat) (b : Byte) : List Byte := List.replicate n b

theorem test_line_length (n : Nat) (b : Byte) : (lineOf n b).length = n := List.length_replicate

theorem test_line_valid (n : Nat) (b : Byte) (h : validByte b = true) : (lineOf n b).all validByte = true := by
  simp [lineOf, h]

theorem test_powered_states (l : Life) : powered (poweredIn l).pin = true := by
  simp [powered, poweredIn]

theorem test_streaming_selects (p : Panel) (n : Nat) :
    selected (streamingFor p n).pin p = true ∧ selected (streamingFor p n).pin (otherPanel p) = false := by
  cases p
  · exact ⟨selected_of_active rfl, not_selected_of_inactive rfl⟩
  · exact ⟨selected_of_active rfl, not_selected_of_inactive rfl⟩

/-- An idle block in an open frame meets the idle invariant. -/
theorem test_streaming_quiet (p : Panel) {n : Nat} (hn : n ≤ 1600) : (shadowOf (streamingFor p n)).Quiet :=
  ⟨fun h => absurd (show some p = none from h) (Option.some_ne_none p),
   (fun q h => by
    obtain rfl : p = q := Option.some.inj h
    exact ⟨(test_streaming_selects p n).1, (test_streaming_selects p n).2, rfl⟩),
   hn, Life.noConfusion, Life.noConfusion⟩

theorem test_streaming_disciplined (p : Panel) {n : Nat} (hn : n ≤ 1600) : (streamingFor p n).Disciplined :=
  ⟨shadowOf (streamingFor p n), rfl, test_streaming_quiet p hn⟩

theorem test_never_busy (n : Nat) : BusyFor neverBusy n 0 := ⟨by simp, by simp [neverBusy]⟩

theorem test_busy_at_zero : BusyFor busyAtZero 0 1 := ⟨by simp [busyAtZero], by simp [busyAtZero]⟩

theorem test_not_busy_after_zero : BusyFor busyAtZero 2 0 := ⟨by simp, by simp [busyAtZero]⟩

/-! ### WellFormed (R64, R174) -/

theorem test_wf_empty_line : (Instr.writeLine .master []).wellFormed = true := by decide
theorem test_wf_full_line : (Instr.writeLine .slave (lineOf 300 0x55)).wellFormed = true := by
  simp [Instr.wellFormed, lineLengthOk, lineBytesOk, test_line_length, Config.lineBytes,
    test_line_valid 300 85#8 (by decide)]
theorem test_wf_refuses_short_line : (Instr.writeLine .master (lineOf 299 0x11)).wellFormed = false := by
  simp [Instr.wellFormed, lineLengthOk, test_line_length, Config.lineBytes]
theorem test_wf_refuses_long_line : (Instr.writeLine .master (lineOf 301 0x11)).wellFormed = false := by
  simp [Instr.wellFormed, lineLengthOk, test_line_length, Config.lineBytes]
theorem test_wf_refuses_colour_code :
    (Instr.writeLine .master (lineOf 299 0x11 ++ [0x56])).wellFormed = false := by
  have h : validByte 86#8 = false := by decide
  simp [Instr.wellFormed, lineBytesOk, h]
theorem test_wf_refuses_high_nibble :
    (Instr.writeLine .master (0x60 :: lineOf 299 0x11)).wellFormed = false := by
  have h : validByte 96#8 = false := by decide
  simp [Instr.wellFormed, lineBytesOk, h]

/-! ### Decoding: every constructor from a word written out bit by bit as OP, ARG, RSV (R80, R81) -/

theorem test_decode_reset : decode 0b0001_0000_00000000 .absent = .ok .reset := rfl
theorem test_decode_initialize : decode 0b0010_0000_00000000 .absent = .ok .initialise := rfl
theorem test_decode_clear_black : decode 0b0011_0000_00000000 .absent = .ok (.clear .black) := rfl
theorem test_decode_clear_blue : decode 0b0011_0100_00000000 .absent = .ok (.clear .blue) := rfl
theorem test_decode_begin_slave : decode 0b0100_0001_00000000 .absent = .ok (.beginFrame .slave) := rfl
theorem test_decode_write_master :
    decode 0b0101_0000_00000000 (.bytes [0x24, 0x11]) = .ok (.writeLine .master [0x24, 0x11]) := rfl
theorem test_decode_end_slave : decode 0b0110_0001_00000000 .absent = .ok (.endFrame .slave) := rfl
theorem test_decode_refresh : decode 0b0111_0000_00000000 .absent = .ok .refreshNow := rfl
theorem test_decode_sleep : decode 0b1000_0000_00000000 .absent = .ok .sleep := rfl
theorem test_decode_power_on : decode 0b1001_0000_00000000 .absent = .ok .powerOn := rfl
theorem test_decode_power_off : decode 0b1010_0000_00000000 .absent = .ok .powerOff := rfl
theorem test_decode_stream (img : Image) :
    decode 0b1011_0000_00000000 (.image img) = .ok (.streamImage img) := rfl

/-- V-DEC-1 to V-DEC-10. -/
theorem test_decode_illegal (img : Image) :
    decode 0x0000 .absent = .error .illegalOp ∧ decode 0xC000 .absent = .error .illegalOp ∧
    decode 0xF000 .absent = .error .illegalOp ∧ decode 0x1001 .absent = .error .illegalOp ∧
    decode 0x3601 .absent = .error .illegalOp ∧ decode 0x1100 .absent = .error .illegalOp ∧
    decode 0x1000 (.bytes [0x11]) = .error .illegalOp ∧ decode 0x5000 .absent = .error .illegalOp ∧
    decode 0xB000 .absent = .error .illegalOp ∧ decode 0xB100 (.image img) = .error .illegalOp :=
  ⟨rfl, rfl, rfl, rfl, rfl, rfl, rfl, rfl, rfl, rfl⟩

/-- V-DEC-12, 13, 15, 16, 17 and 19. -/
theorem test_decode_bad_arguments :
    decode 0x3600 .absent = .error .badColor ∧ decode 0x3F00 .absent = .error .badColor ∧
    decode 0x4200 .absent = .error .badPanel ∧ decode 0x6F00 .absent = .error .badPanel ∧
    decode 0x5200 (.bytes []) = .error .badPanel ∧ decode 0x0500 (.bytes []) = .error .illegalOp :=
  ⟨rfl, rfl, rfl, rfl, rfl, rfl⟩

/-- The words of the assembler examples and of programs P1 and P2 (R93; section 3 of 95_test_vectors.md). -/
theorem test_encode_words :
    (encode (.clear .white)).word = 0x3100 ∧ (encode (.beginFrame .master)).word = 0x4000 ∧
    (encode (.writeLine .slave [])).word = 0x5100 ∧ (encode (.endFrame .slave)).word = 0x6100 ∧
    (encode .powerOff).word = 0xA000 :=
  ⟨rfl, rfl, rfl, rfl, rfl⟩

/-- The bare words of the opcode table decode to their rows' operations. -/
theorem test_table_words :
    decodeTableWord 16 0x1000 = some .reset ∧ decodeTableWord 16 0x2000 = some .initialise ∧
    decodeTableWord 16 0x3500 = some (.clear .green) ∧ decodeTableWord 16 0x4000 = some (.beginFrame .master) ∧
    decodeTableWord 16 0x5100 = some (.writeLine .slave []) ∧ decodeTableWord 16 0x6000 = some (.endFrame .master) ∧
    decodeTableWord 16 0x7000 = some .refreshNow ∧ decodeTableWord 16 0x8000 = some .sleep ∧
    decodeTableWord 16 0x9000 = some .powerOn ∧ decodeTableWord 16 0xA000 = some .powerOff ∧
    decodeTableWord 16 0xB000 = some (.streamImage (Vector.replicate 1600 (Vector.replicate 1200 .black))) ∧
    decodeTableWord 16 0xC000 = none :=
  ⟨rfl, rfl, rfl, rfl, rfl, rfl, rfl, rfl, rfl, rfl, rfl, rfl⟩

/-- A placed table word is what the next step runs. -/
theorem test_fetch_word_runs :
    step (State.reset.withFetchWord 16 0x9000) = exec .powerOn State.reset ∧
    step (State.reset.withFetchWord 16 0x1000) = exec .reset State.reset ∧
    step (State.reset.withFetchWord 16 0xF000) = .next { State.reset with fault := some .illegalOp } :=
  ⟨rfl, rfl, rfl⟩

/-! ### Packing (V-PK and V-MX), on the codes of the reference assignment -/

theorem test_pack_codes :
    packCodes 2 4 = 0x24 ∧ packCodes 4 2 = 0x42 ∧ packCodes 3 5 = 0x35 ∧ packCodes 5 0 = 0x50 ∧ packCodes 0 5 = 0x05 ∧
    hiNibble 0x24 = 2 ∧ loNibble 0x24 = 4 := by decide

theorem test_valid_bytes :
    validByte 0x55 = true ∧ validByte 0x00 = true ∧ validByte 0x05 = true ∧ validByte 0x50 = true ∧
    validByte 0x56 = false ∧ validByte 0x60 = false ∧ validByte 0x0F = false ∧ validByte 0xFF = false ∧
    validByte 0x06 = false := by decide

/-- V-MX-5: logical column 1199 is the Slave's local column 599. -/
theorem test_split_last_column (row : Fin 1200 → PixelColor) : split row .slave ⟨599, by decide⟩ = row ⟨1199, by decide⟩ :=
  rfl

/-! ### Micro-ops (V-MO) -/

theorem test_setpin_repeats_event :
    microStep .low (.setPin .csM Config.csActive) [] (busyState none Config.csActive Config.csInactive []) =
      { busyState none Config.csActive Config.csInactive [] with trace := [.setPin .csM Config.csActive] } := rfl

theorem test_cmd_without_target :
    (microStep .low (.cmd 0x12) [.incLine] (busyState none Config.csInactive Config.csInactive [])).fault =
      some .noTarget := by
  have h : nsel (busyState none Config.csInactive Config.csInactive []).pin = 0 :=
    (nsel_eq_zero_iff _).2 ⟨not_selected_of_inactive rfl, not_selected_of_inactive rfl⟩
  simp [microStep, microCmd, h]

theorem test_pixel_with_both_selects :
    (microStep .low (.pixData 0x11) [] (busyState (some .master) Config.csActive Config.csActive [])).fault =
      some .csConflict := by
  have h : selected (busyState (some .master) Config.csActive Config.csActive []).pin .slave = true :=
    selected_of_active rfl
  have hn : ¬ pixelAllowed (some .master) (busyState (some .master) Config.csActive Config.csActive []).pin = true := by
    rw [pixelAllowed_some_iff]; simp [otherPanel, h]
  simp only [microStep, microPixData]
  rw [if_neg (by exact hn)]
  rfl

theorem test_delay_zero : (microStep .low (.delay 0) [] State.reset).trace = [.delay 0] := rfl

theorem test_setframe_clears_lines :
    microStep .low (.setFrame none) [] (stateIn .streaming (some .master) 7) = stateIn .streaming none 0 := rfl

theorem test_incline_to_full :
    microStep .low .incLine [] (stateIn .streaming (some .master) 1599) = stateIn .streaming (some .master) 1600 := rfl

theorem test_waitbusy_busy_stays :
    (microStep Config.busyActive .waitBusy [.incLine] State.reset).prog = [.waitBusy, .incLine] ∧
    (microStep Config.busyActive .waitBusy [.incLine] State.reset).trace =
      [.sampleBusy Config.busyActive, .delay Config.tPollMs] := by
  simp [microStep, microWaitBusy, emit, setProg, State.reset]

theorem test_waitbusy_clear_leaves :
    (microStep Config.busyActive.other .waitBusy [.incLine] State.reset).prog = [.incLine] ∧
    (microStep Config.busyActive.other .waitBusy [.incLine] State.reset).trace =
      [.sampleBusy Config.busyActive.other, .delay Config.tSettleMs] := by
  simp [microStep, microWaitBusy, emit, setProg, State.reset]

/-! ### Operations: the event counts and the faults of the vectors -/

/-- V-RST-1, V-SLP-1. -/
theorem test_event_counts :
    resetEvents.length = 10 ∧ sleepEvents.length = 7 ∧ (frameOpenEvents .master).length = 2 ∧
    (frameOpenEvents .slave).length = 3 ∧ (busyWaitEvents 0).length = 2 ∧ (busyWaitEvents 2).length = 6 :=
  ⟨rfl, rfl, rfl, rfl, rfl, rfl⟩

/-- V-RST-5. -/
theorem test_reset_open_frame :
    exec .reset { poweredIn .streaming with frame := some .master } =
      .next { poweredIn .streaming with frame := some .master, fault := some .frameOpen } := by
  have h : powered (poweredIn .streaming).pin = true := test_powered_states _
  simp only [exec, execReset, admitReset, admitRow, h]
  rfl

/-- V-INI-2. -/
theorem test_initialize_from_ready :
    exec .initialise (stateIn .ready none 0) = .next { stateIn .ready none 0 with fault := some .illegalState } := rfl

/-- V-REF-4. -/
theorem test_refresh_open_frame :
    exec .refreshNow (stateIn .streaming (some .slave) 5) =
      .next { stateIn .streaming (some .slave) 5 with fault := some .frameOpen } := rfl

/-- V-SLP-2. -/
theorem test_sleep_from_streaming :
    exec .sleep (stateIn .streaming none 0) = .next { stateIn .streaming none 0 with fault := some .illegalState } := rfl

/-- V-PON-4. -/
theorem test_power_on_from_ready :
    exec .powerOn (stateIn .ready none 0) = .next { stateIn .ready none 0 with fault := some .illegalState } := rfl

/-- V-POF-4. -/
theorem test_power_off_from_uninitialized :
    exec .powerOff State.reset = .next { State.reset with fault := some .illegalState } := rfl

/-- V-FR-2. -/
theorem test_begin_slave_deselects_master :
    exec (.beginFrame .slave) (stateIn .ready none 0) =
      .next { stateIn .ready none 0 with
        prog := [.setLife .streaming, .setFrame (some .slave), .setPin .csM Config.csInactive,
          .setPin .csS Config.csActive, .cmd Config.cmdDtm] } := rfl

/-- V-FR-4. -/
theorem test_begin_from_resetting :
    exec (.beginFrame .master) (stateIn .resetting none 0) =
      .next { stateIn .resetting none 0 with fault := some .illegalState } := rfl

/-- V-FR-9, 10 and 11: the columns of the admission table. -/
theorem test_write_line_admission :
    admission (.writeLine .slave [0x11]) (stateIn .streaming (some .master) 0) = some .panelMismatch ∧
    admission (.writeLine .master [0x11]) (stateIn .streaming none 0) = some .frameNotOpen ∧
    admission (.writeLine .master [0x11]) (stateIn .ready none 0) = some .illegalState :=
  ⟨rfl, rfl, rfl⟩

/-- V-FR-6, 7, 12, 13, 14 and 15: the further checks and their order. -/
theorem test_write_line_further_checks :
    lineFault (lineOf 299 0x11) 0 = some .badLineLength ∧ lineFault (lineOf 301 0x11) 0 = some .badLineLength ∧
    lineFault (lineOf 300 0x11) 1600 = some .frameOverflow ∧ lineFault (lineOf 299 0x11) 1600 = some .badLineLength ∧
    lineFault (lineOf 299 0x11 ++ [0x56]) 0 = some .badColorCode ∧
    lineFault (0x60 :: lineOf 299 0x11) 1600 = some .frameOverflow := by
  have h : validByte 86#8 = false := by decide
  simp [lineFault, faultIf, test_line_length, Config.lineBytes, Config.panelH, h]

/-- V-FR-20. -/
theorem test_empty_line_anywhere : exec (.writeLine .master []) State.reset = .next State.reset := rfl

/-- V-FR-17, 18 and 19. -/
theorem test_end_frame_faults :
    admission (.endFrame .master) (stateIn .streaming (some .master) 1599) = some .incompleteFrame ∧
    admission (.endFrame .slave) (stateIn .streaming (some .master) 1600) = some .panelMismatch ∧
    admission (.endFrame .master) (stateIn .ready none 0) = some .illegalState :=
  ⟨rfl, rfl, rfl⟩

/-- V-CL-3 and V-CL-5. -/
theorem test_clear_faults :
    admission (.clear .black) (stateIn .streaming (some .master) 0) = some .frameOpen ∧
    admission (.clear .green) (stateIn .sleeping none 0) = some .illegalState :=
  ⟨rfl, rfl⟩

/-- V-SI-4. -/
theorem test_stream_open_frame (img : Image) :
    admission (.streamImage img) (stateIn .streaming (some .slave) 0) = some .frameOpen := rfl

/-- R93. -/
theorem test_assembler_text :
    asmText "img" (.clear .white) = "CLEAR White" ∧ asmText "img" (.beginFrame .slave) = "BEGIN_FRAME Slave" ∧
    asmText "img" .powerOn = "POWER_ON" := ⟨rfl, rfl, rfl⟩

/-- R94: the power-up and boot of program P1. -/
theorem test_public_boot :
    hostProgram (publicExpansion .powerOn ++ publicExpansion .init) =
      [{ word := 0x9000, operand := .absent }, { word := 0x1000, operand := .absent },
       { word := 0x2000, operand := .absent }] := rfl

/-! ### Witnesses: all the hypotheses of an obligation together, clause by clause -/

theorem test_witness_ReservedEncodingsAreIllegal :
    ∀ x ∈ [((0x0, 0) : BitVec 4 × BitVec 8), (0xC, 0), (0xD, 0), (0xE, 0), (0xF, 0), (0x1, 1), (0xB, 0x80)],
      x.1 = 0x0 ∨ x.1 = 0xC ∨ x.1 = 0xD ∨ x.1 = 0xE ∨ x.1 = 0xF ∨ x.2 ≠ 0 := by simp

theorem test_witness_WrongOperandKindIsIllegal :
    ((0x5 : BitVec 4) = 0x5 ∨ (0x5 : BitVec 4) = 0xB) ∧ ((0xB : BitVec 4) = 0x5 ∨ (0xB : BitVec 4) = 0xB) ∧
    (0x4 : BitVec 4) ≠ 0x5 ∧ (0xA : BitVec 4) ≠ 0xB := by decide

theorem test_witness_ColourArgument : 6 ≤ (6 : BitVec 4).toNat ∧ 6 ≤ (15 : BitVec 4).toNat := by decide

/-- Payloads at both ends of each range, and the entries of `INIT_SEQ`, of which there is a first. -/
theorem test_witness_ConfigurationConstraints :
    ([] : List Byte).length ≤ 9 ∧ (lineOf 9 0xA5).length ≤ 9 ∧ 1 ≤ (lineOf 1 0xA5).length ∧
    Config.entryOf Config.initFirst[0] ∈ Config.initSeq := by
  refine ⟨by decide, by decide, by decide, ?_⟩
  refine List.mem_map_of_mem (List.mem_append_left _ ?_)
  exact Vector.mem_toList_iff.2 (Vector.getElem_mem (by decide))

theorem test_witness_StepRunsDecodedOperation :
    (offering [encode .powerOn]).Idle ∧ (offering [encode .powerOn]).hostOps = encode .powerOn :: [] ∧
    decode (encode .powerOn).word (encode .powerOn).operand = .ok .powerOn :=
  ⟨⟨rfl, rfl⟩, rfl, rfl⟩

theorem test_witness_DecodeFaultIsRaised :
    (offering [{ word := 0x4200, operand := .absent }]).Idle ∧
    (offering [{ word := 0x4200, operand := .absent }]).hostOps = { word := 0x4200, operand := .absent } :: [] ∧
    decode 0x4200 .absent = .error .badPanel :=
  ⟨⟨rfl, rfl⟩, rfl, rfl⟩

theorem test_witness_FinalBlockWaits : State.reset.Final := ⟨rfl, rfl, rfl⟩

theorem test_witness_FaultedBlockHasNoStep : (raise .frameOpen State.reset).fault = some .frameOpen := rfl

theorem test_witness_NoHostStepWhileBusy :
    (busyState none .low .low [.incLine]).fault = none ∧ (busyState none .low .low [.incLine]).prog ≠ [] :=
  ⟨rfl, by simp [busyState]⟩

/-- A busy sample, and a step that moves on. -/
theorem test_witness_MicroStepRunsOneMicroOp :
    (busyState none .low .low [.waitBusy]).fault = none ∧
    (busyState none .low .low [.waitBusy]).prog = .waitBusy :: [] ∧
    (MicroOp.waitBusy = .waitBusy ∧ alwaysBusy (busyState none .low .low [.waitBusy]).draws = Config.busyActive) ∧
    (busyState none .low .low [.incLine]).fault = none ∧ (busyState none .low .low [.incLine]).prog = .incLine :: [] ∧
    ¬ (MicroOp.incLine = .waitBusy ∧ alwaysBusy 0 = Config.busyActive) :=
  ⟨rfl, rfl, ⟨rfl, rfl⟩, rfl, rfl, fun h => by cases h.1⟩

theorem test_witness_SetPinMicroOp :
    (busyState none .low .low [.setPin .rst .high]).fault = none ∧
    (busyState none .low .low [.setPin .rst .high]).prog = .setPin .rst .high :: [] :=
  ⟨rfl, rfl⟩

/-- Both micro-ops, with a chip select asserted and with none. -/
theorem test_witness_CommandAndPayloadBytes :
    (busyState none Config.csActive Config.csInactive [.cmd 0x12]).fault = none ∧
    (busyState none Config.csActive Config.csInactive [.cmd 0x12]).prog = .cmd 0x12 :: [] ∧
    pinLatch (busyState none Config.csActive Config.csInactive [.cmd 0x12]).pin .csM = some Config.csActive ∧
    (busyState none Config.csInactive Config.csInactive [.param 0x12]).fault = none ∧
    (busyState none Config.csInactive Config.csInactive [.param 0x12]).prog = .param 0x12 :: [] ∧
    pinLatch (busyState none Config.csInactive Config.csInactive [.param 0x12]).pin .csM ≠ some Config.csActive ∧
    pinLatch (busyState none Config.csInactive Config.csInactive [.param 0x12]).pin .csS ≠ some Config.csActive :=
  ⟨rfl, rfl, rfl, rfl, rfl, by simp [busyState, pinLatch], by simp [busyState, pinLatch]⟩

/-- An allowed pixel byte, and one with no open frame. -/
theorem test_witness_PixelByteNeedsItsChipSelect :
    (busyState (some .master) Config.csActive Config.csInactive [.pixData 0x11]).fault = none ∧
    (busyState (some .master) Config.csActive Config.csInactive [.pixData 0x11]).prog = .pixData 0x11 :: [] ∧
    (∃ p, (busyState (some .master) Config.csActive Config.csInactive [.pixData 0x11]).frame = some p ∧
      selected (busyState (some .master) Config.csActive Config.csInactive [.pixData 0x11]).pin p = true ∧
      selected (busyState (some .master) Config.csActive Config.csInactive [.pixData 0x11]).pin (otherPanel p) = false) ∧
    (¬ ∃ p, (busyState none Config.csActive Config.csInactive [.pixData 0x11]).frame = some p ∧
      selected (busyState none Config.csActive Config.csInactive [.pixData 0x11]).pin p = true ∧
      selected (busyState none Config.csActive Config.csInactive [.pixData 0x11]).pin (otherPanel p) = false) :=
  ⟨rfl, rfl, ⟨.master, rfl, selected_of_active rfl, not_selected_of_inactive rfl⟩, fun ⟨_, h, _⟩ => by cases h⟩

/-- The last clause: a disciplined state whose next micro-op is a pixel byte. -/
theorem test_witness_PixelByteNeedsItsChipSelect_disciplined :
    (setProg [.pixData 0x11] (streamingFor .master 0)).fault = none ∧
    (setProg [.pixData 0x11] (streamingFor .master 0)).prog = .pixData 0x11 :: [] ∧
    (setProg [.pixData 0x11] (streamingFor .master 0)).Disciplined := by
  have h : pixelAllowed (some .master) (streamingFor .master 0).pin = true :=
    (pixelAllowed_some_iff _ _).2 (test_streaming_selects .master 0)
  refine ⟨rfl, rfl, shadowOf (streamingFor .master 0), ?_, test_streaming_quiet .master (Nat.zero_le _)⟩
  show (dryOp (.pixData 0x11) (shadowOf (streamingFor .master 0))).bind (dryRun []) = _
  rw [dryOp, if_pos (by exact h)]
  rfl

/-- The four micro-ops; and the count of a frame's last line, in a disciplined state. -/
theorem test_witness_DelayAndRegisterMicroOps :
    (busyState none .low .low [.delay 0]).prog = .delay 0 :: [] ∧
    (busyState none .low .low [.setLife .ready]).prog = .setLife .ready :: [] ∧
    (busyState none .low .low [.setFrame none]).prog = .setFrame none :: [] ∧
    (busyState none .low .low [.incLine]).fault = none ∧
    (setProg [.incLine] (streamingFor .slave 1599)).prog = .incLine :: [] ∧
    (setProg [.incLine] (streamingFor .slave 1599)).Disciplined :=
  ⟨rfl, rfl, rfl, rfl, rfl, shadowOf (streamingFor .slave 1600), rfl, test_streaming_quiet .slave (Nat.le_refl _)⟩

/-- One step, a wait with one busy draw, and a line that stays busy. -/
theorem test_witness_BusyWaitMicroOp :
    (busyState none .low .low [.waitBusy, .incLine]).fault = none ∧
    (busyState none .low .low [.waitBusy, .incLine]).prog = .waitBusy :: [.incLine] ∧
    BusyFor busyAtZero (busyState none .low .low [.waitBusy, .incLine]).draws 1 ∧
    ∀ n, alwaysBusy ((busyState none .low .low [.waitBusy, .incLine]).draws + n) = Config.busyActive :=
  ⟨rfl, rfl, test_busy_at_zero, fun _ => rfl⟩

/-- A next state that issues a micro-program, and one that raises a fault. -/
theorem test_witness_ExecFrame :
    exec .sleep (stateIn .ready none 0) = .next (setProg sleepProg (stateIn .ready none 0)) ∧
    exec .sleep State.reset = .next (raise .illegalState State.reset) :=
  ⟨rfl, rfl⟩

theorem test_witness_StatusPorts : faultPort State.reset = faultPort (poweredIn .ready) := rfl

theorem test_witness_ResetOperation :
    (poweredIn .sleeping).Idle ∧ powered (poweredIn .sleeping).pin = true ∧ (poweredIn .sleeping).life ≠ .poweredOff ∧
    (poweredIn .sleeping).frame = none ∧
    (poweredIn .poweredOff).Idle ∧
    ¬ (powered (poweredIn .poweredOff).pin = true ∧ (poweredIn .poweredOff).life ≠ .poweredOff ∧
      (poweredIn .poweredOff).frame = none) :=
  ⟨⟨rfl, rfl⟩, test_powered_states _, by decide, rfl, ⟨rfl, rfl⟩, fun h => h.2.1 rfl⟩

/-- The last clause: some entry targets a pin, and none targets `RST` or `PWR`. -/
theorem test_witness_InitializeOperation_latches :
    (∃ e, e ∈ Config.initSeq ∧ ∃ p, p ∈ targetPins e.target) ∧
    ∀ e ∈ Config.initSeq, Pin.rst ∉ targetPins e.target ∧ Pin.pwr ∉ targetPins e.target := by
  refine ⟨⟨Config.entryOf Config.initFirst[0], ?_, ?_⟩, fun e _ => ?_⟩
  · exact List.mem_map_of_mem (List.mem_append_left _ (by simp))
  · generalize (Config.entryOf Config.initFirst[0]).target = t
    cases t <;> exact ⟨_, List.mem_cons_self⟩
  · cases e.target <;> decide

theorem test_witness_InitializeOperation :
    (stateIn .resetting none 0).Idle ∧ (stateIn .resetting none 0).life = .resetting ∧
    (stateIn .resetting none 0).frame = none ∧ (stateIn .resetting none 0).pin.BothInactive ∧
    (stateIn .ready none 0).Idle ∧
    ¬ ((stateIn .ready none 0).life = .resetting ∧ (stateIn .ready none 0).frame = none) :=
  ⟨⟨rfl, rfl⟩, rfl, rfl, ⟨rfl, rfl⟩, ⟨rfl, rfl⟩, fun h => by cases h.1⟩

/-- With no busy sample, and with one at the first wait; from `Ready` and from `Streaming`; and refused with a frame open. -/
theorem test_witness_RefreshNowOperation :
    (stateIn .ready none 0).Idle ∧ ((stateIn .ready none 0).life = .ready ∨ (stateIn .ready none 0).life = .streaming) ∧
    (stateIn .ready none 0).frame = none ∧
    BusyFor neverBusy (stateIn .ready none 0).draws 0 ∧ BusyFor neverBusy ((stateIn .ready none 0).draws + 0 + 1) 0 ∧
    BusyFor busyAtZero (stateIn .ready none 0).draws 1 ∧ BusyFor busyAtZero ((stateIn .ready none 0).draws + 1 + 1) 0 ∧
    ((stateIn .streaming none 0).life = .ready ∨ (stateIn .streaming none 0).life = .streaming) ∧
    (stateIn .ready (some .slave) 0).Idle ∧
    ¬ (((stateIn .ready (some .slave) 0).life = .ready ∨ (stateIn .ready (some .slave) 0).life = .streaming) ∧
      (stateIn .ready (some .slave) 0).frame = none) :=
  ⟨⟨rfl, rfl⟩, .inl rfl, rfl, test_never_busy _, test_never_busy _, test_busy_at_zero, test_not_busy_after_zero, .inr rfl,
    ⟨rfl, rfl⟩, fun h => by cases h.2⟩

theorem test_witness_SleepOperation :
    (stateIn .ready none 0).Idle ∧ (stateIn .ready none 0).life = .ready ∧ (stateIn .ready none 0).frame = none ∧
    (stateIn .streaming none 0).Idle ∧ (stateIn .streaming none 0).life ≠ .ready :=
  ⟨⟨rfl, rfl⟩, rfl, rfl, ⟨rfl, rfl⟩, by decide⟩

theorem test_witness_PowerOnOperation :
    (stateIn .poweredOff none 0).Idle ∧
    ((stateIn .poweredOff none 0).life = .uninitialized ∨ (stateIn .poweredOff none 0).life = .poweredOff) ∧
    (State.reset.life = .uninitialized ∨ State.reset.life = .poweredOff) ∧ (stateIn .poweredOff none 0).frame = none ∧
    (stateIn .ready none 0).Idle ∧ (stateIn .ready none 0).life ≠ .uninitialized ∧
    (stateIn .ready none 0).life ≠ .poweredOff :=
  ⟨⟨rfl, rfl⟩, .inr rfl, .inl rfl, rfl, ⟨rfl, rfl⟩, by decide, by decide⟩

theorem test_witness_PowerOffOperation :
    (stateIn .sleeping none 0).Idle ∧
    ((stateIn .sleeping none 0).life = .ready ∨ (stateIn .sleeping none 0).life = .sleeping) ∧
    (stateIn .sleeping none 0).frame = none ∧
    (stateIn .streaming none 0).Idle ∧ (stateIn .streaming none 0).life ≠ .ready ∧
    (stateIn .streaming none 0).life ≠ .sleeping :=
  ⟨⟨rfl, rfl⟩, .inr rfl, rfl, ⟨rfl, rfl⟩, by decide, by decide⟩

/-- A frame open in `Streaming`, with an operation of each of the two kinds. -/
theorem test_witness_OpenFrameAdmitsOnlyLinesAndEnd :
    (streamingFor .master 5).Idle ∧ (streamingFor .master 5).frame ≠ none ∧ (streamingFor .master 5).life = .streaming ∧
    (∀ i ∈ [Instr.sleep, .beginFrame .slave], (∀ p bs, i ≠ .writeLine p bs) ∧ ∀ p, i ≠ .endFrame p) :=
  ⟨⟨rfl, rfl⟩, by decide, rfl, by simp⟩

theorem test_witness_BootSequenceReachesReady :
    State.reset.Idle ∧ State.reset.life = .uninitialized ∧ State.reset.frame = none ∧ State.reset.pin.BothInactive :=
  ⟨⟨rfl, rfl⟩, rfl, rfl, rfl, rfl⟩

theorem test_witness_BeginFrameOperation :
    2 ≤ (2 : BitVec 4).toNat ∧ 2 ≤ (15 : BitVec 4).toNat ∧
    (stateIn .ready none 0).Idle ∧ ((stateIn .ready none 0).life = .ready ∨ (stateIn .ready none 0).life = .streaming) ∧
    (stateIn .ready none 0).frame = none ∧
    (stateIn .streaming (some .master) 0).Idle ∧
    ¬ (((stateIn .streaming (some .master) 0).life = .ready ∨ (stateIn .streaming (some .master) 0).life = .streaming) ∧
      (stateIn .streaming (some .master) 0).frame = none) :=
  ⟨by decide, by decide, ⟨rfl, rfl⟩, .inl rfl, rfl, ⟨rfl, rfl⟩, fun h => by cases h.2⟩

theorem test_witness_EmptyLineIsNoOp :
    State.reset.Idle ∧ 2 ≤ (2 : BitVec 4).toNat ∧ 2 ≤ (15 : BitVec 4).toNat := ⟨⟨rfl, rfl⟩, by decide, by decide⟩

/-- The first line of a frame, and the last. -/
theorem test_witness_WriteLineOperation :
    2 ≤ (2 : BitVec 4).toNat ∧ 2 ≤ (15 : BitVec 4).toNat ∧ State.reset.Idle ∧ lineOf 1 0x11 ≠ [] ∧
    (streamingFor .master 0).Idle ∧ (streamingFor .master 0).life = .streaming ∧
    (streamingFor .master 0).frame = some .master ∧ (lineOf 300 0x24).length = 300 ∧
    (streamingFor .master 0).lines ≠ 1600 ∧ (lineOf 300 0x24).all validByte = true ∧
    selected (streamingFor .master 0).pin .master = true ∧
    selected (streamingFor .master 0).pin (otherPanel .master) = false ∧
    (streamingFor .slave 1599).Idle ∧ (streamingFor .slave 1599).frame = some .slave ∧
    (streamingFor .slave 1599).lines ≠ 1600 ∧ selected (streamingFor .slave 1599).pin .slave = true ∧
    selected (streamingFor .slave 1599).pin (otherPanel .slave) = false :=
  ⟨by decide, by decide, ⟨rfl, rfl⟩, by decide, ⟨rfl, rfl⟩, rfl, rfl, test_line_length _ _,
    by simp [streamingFor, stateIn], test_line_valid _ _ (by decide), (test_streaming_selects _ _).1,
    (test_streaming_selects _ _).2, ⟨rfl, rfl⟩, rfl, by simp [streamingFor, stateIn], (test_streaming_selects _ _).1,
    (test_streaming_selects _ _).2⟩

theorem test_witness_ContractLineRaisesNoContractFault :
    (Instr.writeLine .master (lineOf 300 0x11)).wellFormed = true ∧
    exec (.writeLine .master (lineOf 300 0x11)) State.reset = .next (raise .illegalState State.reset) :=
  ⟨by
    simp [Instr.wellFormed, lineLengthOk, lineBytesOk, test_line_length, Config.lineBytes,
      test_line_valid 300 17#8 (by decide)], rfl⟩

theorem test_witness_EndFrameOperation :
    (streamingFor .slave 1600).Idle ∧ (streamingFor .slave 1600).life = .streaming ∧
    (streamingFor .slave 1600).frame = some .slave ∧ (streamingFor .slave 1600).lines = 1600 ∧
    (streamingFor .slave 1599).Idle ∧
    ¬ ((streamingFor .slave 1599).life = .streaming ∧ (streamingFor .slave 1599).frame = some .slave ∧
      (streamingFor .slave 1599).lines = 1600) :=
  ⟨⟨rfl, rfl⟩, rfl, rfl, rfl, ⟨rfl, rfl⟩, fun h => absurd h.2.2 (by simp [streamingFor, stateIn])⟩

/-- `CLEAR` and `STREAM_IMAGE`: admitted in `Streaming`, and refused in `Sleeping`; for the colour arguments see
`test_witness_ColourArgument`. -/
theorem test_witness_ClearOperation_StreamImageOperation :
    (stateIn .streaming none 0).Idle ∧
    ((stateIn .streaming none 0).life = .ready ∨ (stateIn .streaming none 0).life = .streaming) ∧
    (stateIn .streaming none 0).frame = none ∧
    (stateIn .sleeping none 0).Idle ∧
    ¬ (((stateIn .sleeping none 0).life = .ready ∨ (stateIn .sleeping none 0).life = .streaming) ∧
      (stateIn .sleeping none 0).frame = none) :=
  ⟨⟨rfl, rfl⟩, .inr rfl, rfl, ⟨rfl, rfl⟩, fun h => by rcases h.1 with h | h <;> cases h⟩

/-- The last clauses of `ClearOperation` and `StreamImageOperation`. -/
theorem test_witness_ClearOperation_StreamImageOperation_run :
    (stateIn .ready none 0).Idle ∧ ((stateIn .ready none 0).life = .ready ∨ (stateIn .ready none 0).life = .streaming) ∧
    (stateIn .ready none 0).frame = none ∧ (stateIn .ready none 0).pin.BothInactive ∧
    BusyFor busyAtZero (stateIn .ready none 0).draws 1 ∧ BusyFor busyAtZero ((stateIn .ready none 0).draws + 1 + 1) 0 :=
  ⟨⟨rfl, rfl⟩, .inl rfl, rfl, ⟨rfl, rfl⟩, test_busy_at_zero, test_not_busy_after_zero⟩

theorem test_witness_StreamImageEqualsHostTriad :
    (stateIn .ready none 0).Idle ∧ ((stateIn .ready none 0).life = .ready ∨ (stateIn .ready none 0).life = .streaming) ∧
    (stateIn .ready none 0).frame = none ∧ (stateIn .ready none 0).pin.BothInactive ∧ (stateIn .ready none 0).Final :=
  ⟨⟨rfl, rfl⟩, .inl rfl, rfl, ⟨rfl, rfl⟩, rfl, rfl, rfl⟩

/-- An idle state that admits `CLEAR`; for one that does not see `test_witness_ClearOperation_StreamImageOperation`. -/
theorem test_witness_ClearStreamsUniformImage :
    (stateIn .streaming none 0).Idle ∧
    ((stateIn .streaming none 0).life = .ready ∨ (stateIn .streaming none 0).life = .streaming) ∧
    (stateIn .streaming none 0).frame = none := ⟨⟨rfl, rfl⟩, .inr rfl, rfl⟩

theorem test_witness_ColourCodesAreTheSixValues : (0 : BitVec 4).toNat ≤ 5 ∧ (5 : BitVec 4).toNat ≤ 5 := by decide

/-- The byte packed from Black and White unpacks, whatever the colour codes are. -/
theorem test_witness_UnpackInvertsPack : ∃ b e o, unpack b = some (e, o) := by
  have some_color (c : PixelColor) : ∃ d, colorOfCode (colorCode c) = some d :=
    Option.isSome_iff_exists.1 (List.find?_isSome.2 ⟨c, by cases c <;> decide, by simp⟩)
  have nibbles : ∀ h l, hiNibble (packCodes h l) = h ∧ loNibble (packCodes h l) = l := by decide
  obtain ⟨e, he⟩ := some_color .black
  obtain ⟨o, ho⟩ := some_color .white
  exact ⟨pack .black .white, e, o, by rw [unpack, pack, (nibbles _ _).1, (nibbles _ _).2, he, ho]⟩

theorem test_witness_PackHalfRow : 0 < 300 ∧ 299 < 300 := by decide

/-- The reset state's shadow is quiet, so the reset state is disciplined. -/
theorem test_reset_disciplined : State.reset.Disciplined :=
  ⟨shadowOf State.reset, rfl, fun _ => ⟨not_selected_of_inactive rfl, not_selected_of_inactive rfl⟩,
    (fun _ h => absurd h (by simp [shadowOf, State.reset])), Nat.zero_le _, by decide, by decide⟩

theorem test_witness_StepKeepsDiscipline :
    State.reset.Disciplined ∧ step State.reset = .next State.reset := ⟨test_reset_disciplined, rfl⟩

theorem test_witness_ResetIsDisciplined : Pins.cleanStart.BothInactive := ⟨rfl, rfl⟩

/-- With no frame open, and with one. -/
theorem test_witness_IdleInvariant :
    State.reset.Disciplined ∧ State.reset.Idle ∧ State.reset.frame = none ∧
    (streamingFor .slave 1600).Disciplined ∧ (streamingFor .slave 1600).Idle ∧
    (streamingFor .slave 1600).frame = some .slave :=
  ⟨test_reset_disciplined, ⟨rfl, rfl⟩, rfl, test_streaming_disciplined .slave (Nat.le_refl _), ⟨rfl, rfl⟩, rfl⟩

theorem test_witness_LineCounterStaysInRange :
    State.reset.Disciplined ∧ State.reset.lines ≤ 1600 ∧ step State.reset = .next State.reset :=
  ⟨test_reset_disciplined, by decide, rfl⟩

theorem test_witness_StepKeepsLegalBytes :
    State.reset.SendsOnlyLegalBytes ∧ step State.reset = .next State.reset :=
  ⟨⟨by simp [State.reset], by simp [State.reset]⟩, rfl⟩

theorem test_witness_ByteEventsAreLegal :
    ∃ t es, (busyState none Config.csActive Config.csInactive [.cmd Config.cmdDtm]).SendsOnlyLegalBytes ∧
      step (busyState none Config.csActive Config.csInactive [.cmd Config.cmdDtm]) = .next t ∧
      t.trace = (busyState none Config.csActive Config.csInactive [.cmd Config.cmdDtm]).trace ++ es ∧
      .byte .cmd Config.cmdDtm ∈ es := by
  have h : nsel (busyState none Config.csActive Config.csInactive [.cmd Config.cmdDtm]).pin ≠ 0 :=
    nsel_ne_zero_of_selected (p := .master) (selected_of_active rfl)
  refine ⟨_, [.byte .cmd Config.cmdDtm], ⟨?_, ?_⟩, stepWith_busy _ rfl rfl, ?_, List.mem_singleton.2 rfl⟩
  · simp [busyState]
  · simp [busyState, busCommands]
  · rw [microStep_cmd, if_neg h]
    rfl

/-- The step of an allowed pixel byte changes the trace. -/
theorem test_witness_PixelTransferExcludesTheOtherSelect :
    ∃ t, { streamingFor .master 0 with prog := [.pixData 0x11] }.prog = .pixData 0x11 :: [] ∧
      step { streamingFor .master 0 with prog := [.pixData 0x11] } = .next t ∧
      t.trace ≠ { streamingFor .master 0 with prog := [.pixData 0x11] }.trace := by
  have h : pixelAllowed (some .master) (streamingFor .master 0).pin = true :=
    (pixelAllowed_some_iff _ _).2 (test_streaming_selects .master 0)
  refine ⟨_, rfl, stepWith_busy _ rfl rfl, ?_⟩
  rw [microStep_pixData, if_pos (by exact h)]
  simp

/-- A step of a micro-op with an event, and one that raises a fault. -/
theorem test_witness_StepAppendsToTrace :
    (∃ t, step (busyState none Config.csInactive Config.csInactive [.cmd 0x10]) = .next t ∧ t.fault ≠ none) ∧
    step (busyState none .low .low [.delay 3]) =
      .next { busyState none .low .low [] with trace := [.delay 3] } := by
  have h : nsel (busyState none Config.csInactive Config.csInactive [.cmd 0x10]).pin = 0 :=
    (nsel_eq_zero_iff _).2 ⟨not_selected_of_inactive rfl, not_selected_of_inactive rfl⟩
  refine ⟨⟨_, stepWith_busy _ rfl rfl, ?_⟩, rfl⟩
  rw [microStep_cmd, if_pos h]
  simp

theorem test_witness_LatchesFollowTrace :
    replayPins Pins.cleanStart State.reset.trace = State.reset.pin ∧ step State.reset = .next State.reset :=
  ⟨rfl, rfl⟩

/-- Each owner does what the statement leaves to it; `PWR` only where there is such a pin. -/
theorem test_witness_OwnersOfWaitsAndPins :
    MicroOp.waitBusy ∈ expand .refreshNow ∧ MicroOp.setPin .rst Config.rstAssert ∈ expand .reset ∧
    (Config.hasPowerPin = true → MicroOp.setPin .pwr .high ∈ expand .powerOn) := by
  refine ⟨?_, ?_, fun h => ?_⟩
  · simp [expand, refreshProg]
  · simp [expand, resetProg, resetPulse]
  · simp [expand, powerOnProg, h]

theorem test_witness_FairRunsEnd : Fair neverBusy := fun n => ⟨n, Nat.le_refl n, by simp [neverBusy]⟩

end Sys2Proof.Machine
end

section
/-! PROOFS. The configuration (R8, R88, R91): the lengths of payloads, and that every payload and entry the constraints allow
is built by the model's raw form (log entry 1). -/

namespace Sys2Proof.Config

/-! ### Lengths -/

@[simp] theorem length_payloadOf (r : RawPayload) : (payloadOf r).length = r.1.val := by
  have hlt := r.1.isLt
  simp only [payloadOf, List.length_take, Vector.length_toList]
  omega

@[simp] theorem length_payload_entryOf (r : RawInitEntry) : (entryOf r).payload.length = r.2.2.1.val + 1 := by
  have hlt := r.2.2.1.isLt
  simp only [entryOf, List.length_take, Vector.length_toList]
  omega

theorem length_payloadOf_le (r : RawPayload) : (payloadOf r).length ≤ 9 := by
  have hlt := r.1.isLt
  rw [length_payloadOf]
  omega

theorem fourteen_le_length_initSeq : 14 ≤ initSeq.length := by
  simp [initSeq]

theorem length_payload_of_mem_initSeq {e : InitEntry} (he : e ∈ initSeq) :
    1 ≤ e.payload.length ∧ e.payload.length ≤ 9 := by
  obtain ⟨r, -, rfl⟩ := List.mem_map.1 he
  have hlt := r.2.2.1.isLt
  rw [length_payload_entryOf]
  omega

theorem hundred_le_tPwrMs : 100 ≤ tPwrMs := Nat.le_add_right 100 tPwrOverMs

/-! ### Building payloads and entries -/

/-- At most nine bytes, filled up with zeros to nine: the bytes of a raw payload for them. -/
def padToNine (ps : List Byte) (h : ps.length ≤ 9) : Vector Byte 9 :=
  ⟨(ps.rightpad 9 0).toArray, by simp [List.rightpad, h]⟩

theorem take_padToNine (ps : List Byte) (h : ps.length ≤ 9) : (padToNine ps h).toList.take ps.length = ps := by
  simp [padToNine, List.rightpad]

theorem exists_payloadOf_eq (ps : List Byte) (h : ps.length ≤ 9) : ∃ r, payloadOf r = ps :=
  ⟨(⟨ps.length, Nat.lt_succ_of_le h⟩, padToNine ps h), take_padToNine ps h⟩

theorem exists_entryOf_eq (e : InitEntry) (hpos : 1 ≤ e.payload.length) (hle : e.payload.length ≤ 9) :
    ∃ r, entryOf r = e := by
  refine ⟨(e.target, e.cmd, ⟨e.payload.length - 1, by omega⟩, padToNine e.payload hle), ?_⟩
  simp only [entryOf, Nat.sub_add_cancel hpos, take_padToNine]

end Sys2Proof.Config

namespace Sys2Proof.Machine

/-- Settles O9: the bounds hold by the form of the parameters, and that form reaches every list by padding it to nine bytes. -/
theorem configurationConstraints : Obligations.ConfigurationConstraints := by
  refine ⟨Config.fourteen_le_length_initSeq, fun e he => Config.length_payload_of_mem_initSeq he, fun ps hps => ?_,
    Config.hundred_le_tPwrMs, Config.exists_payloadOf_eq, Config.exists_entryOf_eq⟩
  simp only [List.mem_cons, List.not_mem_nil, or_false] at hps
  obtain rfl | rfl | rfl := hps
  · exact Config.length_payloadOf_le Config.ponRaw
  · exact Config.length_payloadOf_le Config.drfRaw
  · exact Config.length_payloadOf_le Config.pofRaw

end Sys2Proof.Machine
end

section
/-! PROOFS. The reset state, the status ports and the pin predicates (R21, R22, R27, R28, R35, R42, R230, R260). -/

namespace Sys2Proof.Machine

/-- Settles O22: every field of the reset is a literal of the definition. -/
theorem blockResetState : Obligations.BlockResetState :=
  ⟨fun _ _ => rfl, ⟨rfl, rfl⟩, rfl, rfl, rfl, rfl, ⟨rfl, rfl⟩, rfl, rfl⟩

/-! ### Ports and codes -/

/-- The faults in the order of R230's table. -/
def faultTable : List FaultCode :=
  [.illegalOp, .badPanel, .badColor, .illegalState, .frameOpen, .frameNotOpen, .panelMismatch, .badLineLength,
    .frameOverflow, .incompleteFrame, .badColorCode, .notPowered, .noTarget, .csConflict]

/-- The code of a fault is its place in the table, counted from 1. -/
theorem faultTable_at_faultCode (f : FaultCode) : faultTable[(faultCode f).toNat - 1]? = some f := by
  cases f <;> rfl

theorem faultCode_injective : Function.Injective faultCode := fun f g h =>
  Option.some.inj (by rw [← faultTable_at_faultCode f, h, faultTable_at_faultCode g])

theorem faultCode_ne_zero (f : FaultCode) : faultCode f ≠ 0 := by
  cases f <;> decide

theorem faultPort_of_none {s : State} (h : s.fault = none) : faultPort s = 0 := by
  simp [faultPort, h]

theorem faultPort_of_some {s : State} {f : FaultCode} (h : s.fault = some f) : faultPort s = faultCode f := by
  simp [faultPort, h]

theorem faultPort_eq_zero_iff (s : State) : faultPort s = 0 ↔ s.fault = none := by
  cases hf : s.fault with
  | none => simp [faultPort_of_none hf]
  | some f => rw [faultPort_of_some hf]; exact iff_of_false (faultCode_ne_zero f) (Option.some_ne_none f)

theorem fault_eq_of_faultPort_eq {s t : State} (h : faultPort s = faultPort t) : s.fault = t.fault := by
  cases ht : t.fault with
  | none => rwa [faultPort_of_none ht, faultPort_eq_zero_iff] at h
  | some g =>
    cases hs : s.fault with
    | none => exact absurd ((faultPort_eq_zero_iff t).1 (h.symm.trans (faultPort_of_none hs))) (by simp [ht])
    | some f =>
      rw [faultPort_of_some hs, faultPort_of_some ht] at h
      rw [faultCode_injective h]

theorem idlePort_iff (s : State) : idlePort s = true ↔ s.Idle := by
  simp [idlePort, State.Idle]

/-- Settles O23: the ports from their lemmas, the three code tables by evaluation. -/
theorem statusPorts : Obligations.StatusPorts :=
  ⟨idlePort_iff, faultPort_eq_zero_iff, fun _ _ => fault_eq_of_faultPort_eq, fun _ => rfl, rfl, rfl⟩

/-! ### Pin predicates -/

theorem nsel_eq_of_latches (ps : Pins) :
    nsel ps = (if ps.csM = some Config.csActive then 1 else 0) + (if ps.csS = some Config.csActive then 1 else 0) := by
  simp [nsel, selected_iff]

theorem powered_iff (ps : Pins) : powered ps = true ↔ Config.hasPowerPin = false ∨ ps.pwr = some .high := by
  simp [powered]

/-- Settles O24: each predicate is read off the latches it names. -/
theorem pinPredicates : Obligations.PinPredicates := fun ps =>
  ⟨selected_iff ps .master, selected_iff ps .slave, nsel_eq_of_latches ps, powered_iff ps⟩

end Sys2Proof.Machine
end

section
/-! PROOFS. The tags of the bytes in the framing of a command frame (R88) and of a pixel-data frame (R89), against R37's
positional tags. -/

namespace Sys2Proof.Machine

@[simp] theorem byteTags_append (es es' : List Event) : byteTags (es ++ es') = byteTags es ++ byteTags es' :=
  List.filterMap_append

@[simp] theorem byteTags_byte_cons (t : Tag) (b : Byte) (es : List Event) :
    byteTags (.byte t b :: es) = t :: byteTags es := rfl

@[simp] theorem byteTags_selectEvents (t : Target) : byteTags (selectEvents t) = [] := by
  cases t <;> rfl

@[simp] theorem byteTags_deselectEvents (t : Target) : byteTags (deselectEvents t) = [] := by
  cases t <;> rfl

@[simp] theorem byteTags_frameOpenEvents (p : Panel) : byteTags (frameOpenEvents p) = [.cmd] := by
  cases p <;> rfl

@[simp] theorem byteTags_frameCloseEvents (p : Panel) : byteTags (frameCloseEvents p) = [] := by
  cases p <;> rfl

@[simp] theorem byteTags_dataBytes (bs : List Byte) :
    byteTags (bs.map (.byte .data)) = List.replicate bs.length .data := by
  induction bs with
  | nil => rfl
  | cons b bs ih => rw [List.map_cons, byteTags_byte_cons, ih]; rfl

@[simp] theorem byteTags_lineEvents (yields : Bool) (bs : List Byte) :
    byteTags (lineEvents yields bs) = List.replicate bs.length .data := by
  have hyield : byteTags (if yields then [.delay Config.rowYieldMs] else []) = [] := by cases yields <;> rfl
  rw [lineEvents, byteTags_append, byteTags_dataBytes, hyield, List.append_nil]

theorem byteTags_lines (yields : Bool) (lines : List (List Byte)) :
    byteTags (lines.flatMap (lineEvents yields)) = List.replicate lines.flatten.length .data := by
  induction lines with
  | nil => rfl
  | cons bs lines ih => simp [ih, List.replicate_append_replicate, -List.length_flatten]

/-- Settles O25: the pin writes and delays have no tag, the one command byte comes first, and every other byte is data. -/
theorem tagsFollowFromPlaces : Obligations.TagsFollowFromPlaces := by
  refine ⟨fun t c ps => ?_, fun p yields lines => ?_⟩
  · simp [commandFrameEvents, positionalTags]
  · simp [pixelFrameEvents, byteTags_lines, positionalTags, -List.length_flatten]

end Sys2Proof.Machine
end

section
/-! PROOFS. The pin latches are the replay of the trace's pin writes (R26, R112). -/

namespace Sys2Proof.Machine

theorem replayPins_append (ps : Pins) (es es' : List Event) :
    replayPins ps (es ++ es') = replayPins (replayPins ps es) es' := by
  induction es generalizing ps with
  | nil => rfl
  | cons e es ih => cases e <;> exact ih _

/-- What `t` has over `s`: some more events, and the latches that their pin writes make. -/
def AppendsReplayed (s t : State) : Prop := ∃ es, t.trace = s.trace ++ es ∧ t.pin = replayPins s.pin es

theorem appendsReplayed_of_same {s t : State} (ht : t.trace = s.trace) (hp : t.pin = s.pin) : AppendsReplayed s t :=
  ⟨[], by rw [ht, List.append_nil], hp⟩

theorem microStep_appendsReplayed (l : Level) (m : MicroOp) (rest : List MicroOp) (s : State) :
    AppendsReplayed s (microStep l m rest s) := by
  cases m with
  | setPin p v => exact ⟨[.setPin p v], rfl, rfl⟩
  | cmd b =>
    rw [microStep_cmd]
    split
    · exact appendsReplayed_of_same rfl rfl
    · exact ⟨[.byte .cmd b], rfl, rfl⟩
  | param b =>
    rw [microStep_param]
    split
    · exact appendsReplayed_of_same rfl rfl
    · exact ⟨[.byte .data b], rfl, rfl⟩
  | pixData b =>
    rw [microStep_pixData]
    split
    · exact ⟨[.byte .data b], rfl, rfl⟩
    · exact appendsReplayed_of_same rfl rfl
  | delay n => exact ⟨[.delay n], rfl, rfl⟩
  | setLife v => exact appendsReplayed_of_same rfl rfl
  | setFrame f => exact appendsReplayed_of_same rfl rfl
  | incLine => exact appendsReplayed_of_same rfl rfl
  | waitBusy =>
    rw [microStep_waitBusy]
    split
    · exact ⟨[.sampleBusy l, .delay Config.tPollMs], List.append_assoc .., rfl⟩
    · exact ⟨[.sampleBusy l, .delay Config.tSettleMs], List.append_assoc .., rfl⟩

/-- A step that is no micro step touches neither the registers and latches nor the trace. -/
theorem stepWith_idle_next {draw : Nat → Level} {s t : State} (hp : s.prog = []) (h : stepWith draw s = .next t) :
    shadowOf t = shadowOf s ∧ t.trace = s.trace := by
  obtain ⟨-, ⟨m, rest, hm, -⟩ | ⟨-, -, rfl⟩ | ⟨-, op, more, -, hc⟩⟩ := stepWith_next h
  · simp [hp] at hm
  · exact ⟨rfl, rfl⟩
  · obtain ⟨f, -, rfl⟩ | ⟨i, -, ⟨f, -, rfl⟩ | ⟨-, rfl⟩⟩ := hc <;> exact ⟨rfl, rfl⟩

theorem stepWith_appendsReplayed {draw : Nat → Level} {s t : State} (h : stepWith draw s = .next t) :
    AppendsReplayed s t := by
  cases hp : s.prog with
  | nil =>
    obtain ⟨hshadow, htrace⟩ := stepWith_idle_next hp h
    exact appendsReplayed_of_same htrace (congrArg Shadow.pin hshadow)
  | cons m rest =>
    obtain ⟨hf, -⟩ := stepWith_next h
    cases (stepWith_busy draw hf hp).symm.trans h
    exact microStep_appendsReplayed _ m rest s

/-- Settles O58: replaying a longer trace is replaying the events a step appends on the latches it started from. -/
theorem latchesFollowTrace : Obligations.LatchesFollowTrace := by
  intro launch s t hs hstep
  obtain ⟨es, htrace, hpin⟩ := stepWith_appendsReplayed hstep
  rw [htrace, replayPins_append, hs, hpin]

end Sys2Proof.Machine
end

section
/-! PROOFS. What an admitted operation finds, and that decoding and admission raise no fault a micro step raises (R82, R140,
R173, R232). -/

namespace Sys2Proof.Machine

/-! ### What an admitted operation finds -/

/-- Every operation but the two on an open frame is admitted by its row alone, which wants no frame open (R140). -/
theorem admission_cases (i : Instr) :
    (∃ p bs, i = .writeLine p bs) ∨ (∃ p, i = .endFrame p) ∨
    ∃ r : AdmitRow, (∀ s, admission i s = admitRow r s) ∧ (r.frame = .closed ∨ r.frame = .closedUnnamed) := by
  cases i with
  | writeLine p bs => exact .inl ⟨p, bs, rfl⟩
  | endFrame p => exact .inr (.inl ⟨p, rfl⟩)
  | reset => exact .inr (.inr ⟨_, admitReset.eq_def, .inl rfl⟩)
  | initialise => exact .inr (.inr ⟨_, admitInitialize.eq_def, .inl rfl⟩)
  | clear c => exact .inr (.inr ⟨_, admitClear.eq_def, .inl rfl⟩)
  | beginFrame p => exact .inr (.inr ⟨_, admitBeginFrame.eq_def, .inl rfl⟩)
  | refreshNow => exact .inr (.inr ⟨_, admitRefreshNow.eq_def, .inl rfl⟩)
  | streamImage img => exact .inr (.inr ⟨_, admitStreamImage.eq_def, .inl rfl⟩)
  | sleep => exact .inr (.inr ⟨_, admitSleep.eq_def, .inr rfl⟩)
  | powerOn => exact .inr (.inr ⟨_, admitPowerOn.eq_def, .inr rfl⟩)
  | powerOff => exact .inr (.inr ⟨_, admitPowerOff.eq_def, .inr rfl⟩)

theorem frame_none_of_admission {i : Instr} {s : State} (h : admission i s = none) (hw : ∀ p bs, i ≠ .writeLine p bs)
    (he : ∀ p, i ≠ .endFrame p) : s.frame = none := by
  obtain ⟨p, bs, hi⟩ | ⟨p, hi⟩ | ⟨r, hadm, hr⟩ := admission_cases i
  · exact absurd hi (hw p bs)
  · exact absurd hi (he p)
  rw [hadm, admitRow_eq_none] at h
  obtain ⟨-, -, hframe⟩ := h
  obtain hr | hr := hr
  · rwa [hr, frameFault_closed_eq_none] at hframe
  · rwa [hr, frameFault_closedUnnamed_eq_none] at hframe

theorem frame_some_of_admitRow {r : AdmitRow} {s : State} {p : Panel} (hr : r.frame = .openFor p)
    (h : admitRow r s = none) : s.frame = some p := by
  obtain ⟨-, -, hframe⟩ := (admitRow_eq_none r s).1 h
  rwa [hr, frameFault_openFor_eq_none] at hframe

theorem of_admitWriteLine {p : Panel} {bs : List Byte} {s : State} (h : admitWriteLine p bs s = none) (hbs : bs ≠ []) :
    s.frame = some p ∧ s.lines ≠ Config.panelH := by
  rw [admitWriteLine, if_neg (by simpa using hbs), Option.or_eq_none_iff, lineFault_eq_none] at h
  obtain ⟨hrow, -, hlines, -⟩ := h
  exact ⟨frame_some_of_admitRow rfl hrow, hlines⟩

theorem of_admitEndFrame {p : Panel} {s : State} (h : admitEndFrame p s = none) : s.frame = some p := by
  rw [admitEndFrame, Option.or_eq_none_iff] at h
  exact frame_some_of_admitRow rfl h.1

/-! ### Faults of decoding -/

/-- A fault that is none of the two a micro step raises (R232). -/
def IssueFault (f : FaultCode) : Prop := f ≠ .noTarget ∧ f ≠ .csConflict

theorem issueFault_of_withoutArg {a : BitVec 4} {i : Instr} {f : FaultCode} (h : withoutArg a i = .error f) :
    IssueFault f := by
  unfold withoutArg at h
  split at h <;> cases h
  exact ⟨nofun, nofun⟩

theorem issueFault_of_panelOfArg {a : BitVec 4} {g : Panel → Instr} {f : FaultCode}
    (h : (panelOfArg a).map g = .error f) : IssueFault f := by
  unfold panelOfArg at h
  split at h <;> cases h
  exact ⟨nofun, nofun⟩

theorem issueFault_of_colorOfArg {a : BitVec 4} {g : PixelColor → Instr} {f : FaultCode}
    (h : (colorOfArg a).map g = .error f) : IssueFault f := by
  unfold colorOfArg at h
  split at h <;> cases h
  exact ⟨nofun, nofun⟩

theorem issueFault_of_decodeOperands {op : OpCode} {a : BitVec 4} {o : Operand} {f : FaultCode}
    (h : decodeOperands op a o = .error f) : IssueFault f := by
  unfold decodeOperands at h
  split at h
  -- the arms in R81's order: the third takes a colour, the next three a panel, the twelfth refuses the operand kind
  case h_3 => exact issueFault_of_colorOfArg h
  case h_4 | h_5 | h_6 => exact issueFault_of_panelOfArg h
  case h_12 => cases h; exact ⟨nofun, nofun⟩
  all_goals exact issueFault_of_withoutArg h

theorem issueFault_of_decode {w : OpWord} {o : Operand} {f : FaultCode} (h : decode w o = .error f) :
    IssueFault f := by
  unfold decode at h
  split at h
  · cases h; exact ⟨nofun, nofun⟩
  · split at h
    · exact issueFault_of_decodeOperands h
    · cases h; exact ⟨nofun, nofun⟩

/-! ### Faults of admission -/

theorem issueFault_of_frameFault {need : FrameNeed} {fr : Option Panel} {f : FaultCode}
    (h : frameFault need fr = some f) : IssueFault f := by
  cases need with
  | closed | closedUnnamed => cases fr <;> cases h; exact ⟨nofun, nofun⟩
  | openFor p =>
    cases fr with
    | none => cases h; exact ⟨nofun, nofun⟩
    | some q =>
      simp only [frameFault] at h
      split at h <;> cases h
      exact ⟨nofun, nofun⟩

theorem issueFault_of_admitRow {r : AdmitRow} {s : State} {f : FaultCode} (h : admitRow r s = some f) :
    IssueFault f := by
  unfold admitRow at h
  split at h
  · cases h; exact ⟨nofun, nofun⟩
  · split at h
    · exact issueFault_of_frameFault h
    · cases h; exact ⟨nofun, nofun⟩

theorem eq_of_faultIf {c : Bool} {f g : FaultCode} (h : faultIf c f = some g) : g = f := by
  cases c <;> cases h
  rfl

theorem issueFault_of_lineFault {bs : List Byte} {lines : Nat} {f : FaultCode} (h : lineFault bs lines = some f) :
    IssueFault f := by
  simp only [lineFault, Option.or_eq_some_iff] at h
  obtain (h | ⟨-, h⟩) | ⟨-, h⟩ := h <;> cases eq_of_faultIf h <;> exact ⟨nofun, nofun⟩

theorem issueFault_of_admission {i : Instr} {s : State} {f : FaultCode} (h : admission i s = some f) :
    IssueFault f := by
  obtain ⟨p, bs, rfl⟩ | ⟨p, rfl⟩ | ⟨r, hadm, -⟩ := admission_cases i
  · simp only [admission, admitWriteLine] at h
    split at h
    · cases h
    · obtain h | ⟨-, h⟩ := Option.or_eq_some_iff.1 h
      · exact issueFault_of_admitRow h
      · exact issueFault_of_lineFault h
  · obtain h | ⟨-, h⟩ := Option.or_eq_some_iff.1 h
    · exact issueFault_of_admitRow h
    · cases eq_of_faultIf h; exact ⟨nofun, nofun⟩
  · exact issueFault_of_admitRow ((hadm s).symm.trans h)

end Sys2Proof.Machine
end

section
/-! PROOFS. Every micro-program dry runs from a quiet block without a fault and ends in a quiet block (R41, R232): first for a
block with no frame open, then for an open frame. -/

namespace Sys2Proof.Machine

/-- The micro-program raises no fault from these registers and latches, and ends quiet. -/
def EndsQuiet (prog : List MicroOp) (h : Shadow) : Prop := ∃ h', dryRun prog h = some h' ∧ h'.Quiet

/-- No chip select is asserted. -/
def Pins.Unselected (ps : Pins) : Prop := selected ps .master = false ∧ selected ps .slave = false

/-- No frame is open, no chip select asserted and the line counter in its range, whatever the lifecycle state. -/
structure Shadow.Closed (h : Shadow) : Prop where
  frame : h.frame = none
  unselected : h.pin.Unselected
  lines : h.lines ≤ 1600

theorem Shadow.Quiet.closed {h : Shadow} (hq : h.Quiet) (hf : h.frame = none) : h.Closed := by
  obtain ⟨hclosed, -, hlines, -, -⟩ := hq
  exact ⟨hf, hclosed hf, hlines⟩

theorem Shadow.Closed.quiet {h : Shadow} (hc : h.Closed) (h1 : h.life ≠ .configuring) (h2 : h.life ≠ .refreshing) :
    h.Quiet :=
  ⟨fun _ => hc.unselected, fun p hp => by simp [hc.frame] at hp, hc.lines, h1, h2⟩

/-! ### Chip selects -/

theorem bothInactive_unselected {ps : Pins} (h : ps.BothInactive) : ps.Unselected := bothInactive_not_selected h

/-- A command frame leaves a block with no chip select asserted as it found it in that. -/
theorem unselected_driveTarget {ps : Pins} (h : ps.Unselected) (t : Target) :
    (driveTarget (driveTarget ps t Config.csActive) t Config.csInactive).Unselected := by
  obtain ⟨hm, hs⟩ := h
  cases t with
  | master => exact ⟨not_selected_of_inactive rfl, hs⟩
  | slave => exact ⟨hm, not_selected_of_inactive rfl⟩
  | both => exact ⟨not_selected_of_inactive rfl, not_selected_of_inactive rfl⟩

/-- Opening a frame on deasserted selects asserts its panel's and not the other. -/
theorem selected_frameOpenPins (p : Panel) {ps : Pins} (h : ps.Unselected) :
    selected (frameOpenPins p ps) p = true ∧ selected (frameOpenPins p ps) (otherPanel p) = false :=
  (pixelAllowed_some_iff _ p).1 (pixelAllowed_frameOpenPins p h.2)

/-- Deasserting the open frame's chip select leaves none asserted. -/
theorem unselected_frameClosePins {p : Panel} {ps : Pins} (h : selected ps (otherPanel p) = false) :
    (frameClosePins p ps).Unselected := by
  cases p with
  | master => exact ⟨not_selected_of_inactive rfl, h⟩
  | slave => exact ⟨h, not_selected_of_inactive rfl⟩

/-! ### Rows and halves -/

/-- A row: where pixel bytes are allowed and the frame is not full it raises no fault and counts one line. -/
def IsRow (row : List MicroOp) : Prop :=
  ∀ h : Shadow, pixelAllowed h.frame h.pin = true → h.lines < 1600 →
    dryRun row h = some { h with lines := h.lines + 1 }

theorem isRow_lineProg (bs : List Byte) : IsRow (lineProg bs) := fun h ha hl => dryRun_lineProg bs h ha hl

theorem clearRow_eq (c : PixelColor) :
    clearRow c = lineProg (List.replicate Config.lineBytes (fill c)) ++ [.delay Config.rowYieldMs] := by
  simp [clearRow, lineProg]

theorem isRow_clearRow (c : PixelColor) : IsRow (clearRow c) := fun h ha hl => by
  rw [clearRow_eq, dryRun_append, dryRun_lineProg _ h ha hl]
  rfl

theorem dryRun_rows {rows : List (List MicroOp)} (hrows : ∀ r ∈ rows, IsRow r) (h : Shadow)
    (ha : pixelAllowed h.frame h.pin = true) (hl : h.lines + rows.length ≤ 1600) :
    dryRun rows.flatten h = some { h with lines := h.lines + rows.length } := by
  induction rows generalizing h with
  | nil => rfl
  | cons r rows ih =>
    rw [List.length_cons] at hl ⊢
    obtain ⟨hr, hrows⟩ := List.forall_mem_cons.1 hrows
    rw [List.flatten_cons, dryRun_append, hr h ha (by omega), Option.bind_some,
      ih hrows { h with lines := h.lines + 1 } ha (by dsimp only; omega), Nat.add_assoc, Nat.add_comm 1]

/-- The frame of one half, from deasserted selects and with no more rows than a frame holds, ends closed. -/
theorem dryRun_half (p : Panel) {rows : List (List MicroOp)} (hrows : ∀ r ∈ rows, IsRow r) (hlen : rows.length ≤ 1600)
    {h : Shadow} (hu : h.pin.Unselected) :
    ∃ h', dryRun (beginProg p ++ rows.flatten ++ endProg p) h = some h' ∧ h'.Closed := by
  rw [dryRun_append, dryRun_append, dryRun_beginProg, Option.bind_some,
    dryRun_rows hrows _ (pixelAllowed_frameOpenPins p hu.2) (by dsimp only; omega), Option.bind_some, dryRun_endProg]
  exact ⟨_, rfl, rfl, unselected_frameClosePins (selected_frameOpenPins p hu).2, Nat.zero_le _⟩

/-- The refresh program ends a closed block quiet. -/
theorem endsQuiet_refreshProg {h : Shadow} (hc : h.Closed) : EndsQuiet refreshProg h :=
  ⟨_, dryRun_refreshProg h,
    Shadow.Closed.quiet ⟨hc.frame, bothInactive_unselected ⟨rfl, rfl⟩, hc.lines⟩ nofun nofun⟩

/-- Two halves and a refresh: the shape of `CLEAR` and of `STREAM_IMAGE`. -/
theorem endsQuiet_halves {rowsM rowsS : List (List MicroOp)} (hM : ∀ r ∈ rowsM, IsRow r) (hS : ∀ r ∈ rowsS, IsRow r)
    (hlenM : rowsM.length ≤ 1600) (hlenS : rowsS.length ≤ 1600) {h : Shadow} (hc : h.Closed) :
    EndsQuiet
      ((beginProg .master ++ rowsM.flatten ++ endProg .master) ++ (beginProg .slave ++ rowsS.flatten ++ endProg .slave)
        ++ refreshProg) h := by
  obtain ⟨h1, hrun1, hc1⟩ := dryRun_half .master hM hlenM hc.unselected
  obtain ⟨h2, hrun2, hc2⟩ := dryRun_half .slave hS hlenS hc1.unselected
  obtain ⟨h3, hrun3, hq⟩ := endsQuiet_refreshProg hc2
  refine ⟨h3, ?_, hq⟩
  rw [dryRun_append, dryRun_append, hrun1, Option.bind_some, hrun2, Option.bind_some, hrun3]

/-! ### Operations that need the frame closed -/

section Closed

variable {h : Shadow} (hc : h.Closed)
include hc

theorem endsQuiet_clearProg (c : PixelColor) : EndsQuiet (clearProg c) h := by
  have hrows : ∀ r ∈ List.replicate Config.panelH (clearRow c), IsRow r := fun r hr => by
    rw [List.eq_of_mem_replicate hr]; exact isRow_clearRow c
  have hlen : (List.replicate Config.panelH (clearRow c)).length ≤ 1600 := List.length_replicate.le
  exact endsQuiet_halves hrows hrows hlen hlen hc

theorem endsQuiet_streamProg (img : Image) : EndsQuiet (streamProg img) h := by
  have hrows : ∀ p, ∀ r ∈ (imageLines img p).map lineProg, IsRow r := fun p r hr => by
    obtain ⟨bs, -, rfl⟩ := List.mem_map.1 hr
    exact isRow_lineProg bs
  have hlen : ∀ p, ((imageLines img p).map lineProg).length ≤ 1600 := fun p =>
    (List.length_map ..).trans_le List.length_ofFn.le
  simp only [streamProg, streamHalf, List.flatMap_def]
  exact endsQuiet_halves (hrows .master) (hrows .slave) (hlen .master) (hlen .slave) hc

theorem endsQuiet_resetProg : EndsQuiet resetProg h :=
  ⟨{ h with life := .resetting, pin := { h.pin with rst := some Config.rstAssert } }, rfl,
    Shadow.Closed.quiet ⟨hc.frame, hc.unselected, hc.lines⟩ nofun nofun⟩

theorem dryRun_initFrames (es : List Config.InitEntry) :
    ∃ h', dryRun (es.flatMap initFrame) h = some h' ∧ h'.Closed := by
  induction es generalizing h with
  | nil => exact ⟨h, rfl, hc⟩
  | cons e es ih =>
    rw [List.flatMap_cons, dryRun_append, initFrame, dryRun_cmdFrame, Option.bind_some]
    exact ih ⟨hc.frame, unselected_driveTarget hc.unselected e.target, hc.lines⟩

theorem endsQuiet_initializeProg : EndsQuiet initializeProg h := by
  have hstart : ({ h with life := .configuring } : Shadow).Closed := ⟨hc.frame, hc.unselected, hc.lines⟩
  obtain ⟨h', hrun, hc'⟩ := dryRun_initFrames hstart Config.initSeq
  refine ⟨{ h' with life := .ready }, ?_, Shadow.Closed.quiet ⟨hc'.frame, hc'.unselected, hc'.lines⟩ nofun nofun⟩
  rw [initializeProg, dryRun_append, List.singleton_append, dryRun]
  simp only [dryOp, Option.bind_some, hrun]
  rfl

theorem endsQuiet_sleepProg : EndsQuiet sleepProg h :=
  ⟨_, dryRun_sleepProg h,
    Shadow.Closed.quiet ⟨hc.frame, bothInactive_unselected ⟨rfl, rfl⟩, hc.lines⟩ nofun nofun⟩

theorem endsQuiet_powerOnProg : EndsQuiet powerOnProg h := by
  unfold powerOnProg
  split
  · exact ⟨_, rfl, Shadow.Closed.quiet ⟨hc.frame, hc.unselected, hc.lines⟩ nofun nofun⟩
  · exact ⟨_, rfl, Shadow.Closed.quiet ⟨hc.frame, hc.unselected, hc.lines⟩ nofun nofun⟩

theorem endsQuiet_powerOffProg : EndsQuiet powerOffProg h := by
  unfold powerOffProg
  split
  · rw [EndsQuiet, dryRun_append, dryRun_sleepProg]
    exact ⟨_, rfl, Shadow.Closed.quiet ⟨hc.frame, bothInactive_unselected ⟨rfl, rfl⟩, hc.lines⟩ nofun nofun⟩
  · rw [List.append_nil]; exact endsQuiet_sleepProg hc

theorem endsQuiet_beginProg (p : Panel) : EndsQuiet (beginProg p) h := by
  obtain ⟨hsel, hother⟩ := selected_frameOpenPins p hc.unselected
  refine ⟨_, dryRun_beginProg p h, nofun, fun q hq => ?_, Nat.zero_le _, nofun, nofun⟩
  cases hq
  exact ⟨hsel, hother, rfl⟩

end Closed

/-! ### Operations on an open frame -/

theorem endsQuiet_writeLineProg {bs : List Byte} {p : Panel} {h : Shadow} (hq : h.Quiet)
    (hopen : bs ≠ [] → h.frame = some p ∧ h.lines ≠ Config.panelH) : EndsQuiet (writeLineProg bs) h := by
  by_cases hbs : bs = []
  · subst hbs
    exact ⟨h, rfl, hq⟩
  · obtain ⟨hframe, hlines⟩ := hopen hbs
    obtain ⟨hclosed, hsel, hle, hlife⟩ := hq
    obtain ⟨hp, hother, -⟩ := hsel p hframe
    have ha : pixelAllowed h.frame h.pin = true := by rw [hframe, pixelAllowed_some_iff]; exact ⟨hp, hother⟩
    have hlt : h.lines < 1600 := Nat.lt_of_le_of_ne hle hlines
    refine ⟨{ h with lines := h.lines + 1 }, ?_, hclosed, hsel, hlt, hlife⟩
    rw [writeLineProg, if_neg (by simpa using hbs), dryRun_lineProg bs h ha hlt]

theorem endsQuiet_endProg {p : Panel} {h : Shadow} (hq : h.Quiet) (hframe : h.frame = some p) :
    EndsQuiet (endProg p) h := by
  obtain ⟨-, hsel, -, h1, h2⟩ := hq
  obtain ⟨-, hother, -⟩ := hsel p hframe
  exact ⟨_, dryRun_endProg p h, Shadow.Closed.quiet ⟨rfl, unselected_frameClosePins hother, Nat.zero_le _⟩ h1 h2⟩

/-! ### Every operation -/

/-- An operation admitted in a quiet block ends quiet. -/
theorem endsQuiet_expand {i : Instr} {s : State} (hq : (shadowOf s).Quiet) (ha : admission i s = none) :
    EndsQuiet (expand i) (shadowOf s) := by
  cases i with
  | reset => exact endsQuiet_resetProg (hq.closed (frame_none_of_admission ha nofun nofun))
  | initialise => exact endsQuiet_initializeProg (hq.closed (frame_none_of_admission ha nofun nofun))
  | clear c => exact endsQuiet_clearProg (hq.closed (frame_none_of_admission ha nofun nofun)) c
  | beginFrame p => exact endsQuiet_beginProg (hq.closed (frame_none_of_admission ha nofun nofun)) p
  | writeLine p bs => exact endsQuiet_writeLineProg hq (of_admitWriteLine ha)
  | endFrame p => exact endsQuiet_endProg hq (of_admitEndFrame ha)
  | refreshNow => exact endsQuiet_refreshProg (hq.closed (frame_none_of_admission ha nofun nofun))
  | sleep => exact endsQuiet_sleepProg (hq.closed (frame_none_of_admission ha nofun nofun))
  | powerOn => exact endsQuiet_powerOnProg (hq.closed (frame_none_of_admission ha nofun nofun))
  | powerOff => exact endsQuiet_powerOffProg (hq.closed (frame_none_of_admission ha nofun nofun))
  | streamImage img => exact endsQuiet_streamProg (hq.closed (frame_none_of_admission ha nofun nofun)) img

end Sys2Proof.Machine
end

section
/-! PROOFS. Discipline is kept by every step (R41, R232), and what follows from it: the idle invariant and the range of the
line counter (R23, R119). -/

namespace Sys2Proof.Machine

theorem disciplined_of_fault {s : State} {f : FaultCode} (hf : s.fault = some f) : s.Disciplined ↔ IssueFault f := by
  unfold State.Disciplined
  rw [hf]
  rfl

theorem disciplined_of_no_fault {s : State} (hf : s.fault = none) :
    s.Disciplined ↔ EndsQuiet s.prog (shadowOf s) := by
  unfold State.Disciplined
  rw [hf]
  rfl

theorem endsQuiet_nil_iff (h : Shadow) : EndsQuiet [] h ↔ h.Quiet := by
  simp [EndsQuiet, dryRun]

theorem endsQuiet_cons_iff (m : MicroOp) (rest : List MicroOp) (h : Shadow) :
    EndsQuiet (m :: rest) h ↔ ∃ h', dryOp m h = some h' ∧ EndsQuiet rest h' := by
  simp only [EndsQuiet, dryRun, Option.bind_eq_some_iff]
  exact ⟨fun ⟨e, ⟨h', hd, hr⟩, hq⟩ => ⟨h', hd, e, hr, hq⟩, fun ⟨h', hd, e, hr, hq⟩ => ⟨e, ⟨h', hd, hr⟩, hq⟩⟩

theorem quiet_of_idle {s : State} (hd : s.Disciplined) (hi : s.Idle) : (shadowOf s).Quiet := by
  obtain ⟨hp, hf⟩ := hi
  rwa [disciplined_of_no_fault hf, hp, endsQuiet_nil_iff] at hd

/-- The head micro-op of a disciplined block dry runs, and the rest ends quiet. -/
theorem dryOp_of_disciplined {s : State} {m : MicroOp} {rest : List MicroOp} (hd : s.Disciplined) (hf : s.fault = none)
    (hp : s.prog = m :: rest) : ∃ h', dryOp m (shadowOf s) = some h' ∧ EndsQuiet rest h' := by
  rwa [disciplined_of_no_fault hf, hp, endsQuiet_cons_iff] at hd

/-- A micro step that dry runs leaves the rest, or the same `WAITBUSY` before it, which the dry run passes over. -/
theorem endsQuiet_microStep_prog {s : State} {h' : Shadow} {l : Level} {m : MicroOp} {rest : List MicroOp}
    (hnf : (microStep l m rest s).fault = none) (hq : EndsQuiet rest h') :
    EndsQuiet (microStep l m rest s).prog h' := by
  obtain ⟨f, -, hraise⟩ | ⟨-, hprog | ⟨-, -, hprog⟩, -⟩ := microStep_cases l m rest s
  · simp [hraise] at hnf
  · rwa [hprog]
  · rw [hprog, endsQuiet_cons_iff]
    exact ⟨h', rfl, hq⟩

theorem microStep_keeps_discipline {s : State} (l : Level) {m : MicroOp} {rest : List MicroOp} (hd : s.Disciplined)
    (hf : s.fault = none) (hp : s.prog = m :: rest) : (microStep l m rest s).Disciplined := by
  obtain ⟨h', hop, hq⟩ := dryOp_of_disciplined hd hf hp
  obtain ⟨hshadow, hfault⟩ := microStep_of_dryOp l m rest hop
  have hnf : (microStep l m rest s).fault = none := hfault.trans hf
  rw [disciplined_of_no_fault hnf, hshadow]
  exact endsQuiet_microStep_prog hnf hq

/-- Settles O50, for each way a step answers: a micro step follows the dry run; a decode or admission fault is none of the
two; an admitted operation's micro-program ends a quiet block quiet. -/
theorem stepKeepsDiscipline : Obligations.StepKeepsDiscipline := by
  intro s t hd hstep
  obtain ⟨hf, ⟨m, rest, hp, rfl⟩ | ⟨-, -, rfl⟩ | ⟨hp, op, more, -, hc⟩⟩ := stepWith_next hstep
  · exact microStep_keeps_discipline _ hd hf hp
  · exact hd
  · obtain ⟨f, hdec, rfl⟩ | ⟨i, -, ⟨f, ha, rfl⟩ | ⟨ha, rfl⟩⟩ := hc
    · exact (disciplined_of_fault rfl).2 (issueFault_of_decode hdec)
    · exact (disciplined_of_fault rfl).2 (issueFault_of_admission ha)
    · have hq : (shadowOf { s with hostOps := more }).Quiet := quiet_of_idle hd ⟨hp, hf⟩
      exact (disciplined_of_no_fault (by exact hf)).2 (endsQuiet_expand hq ha)

/-- Settles O52: an idle block has nothing left to dry run, so discipline is quiet. -/
theorem idleInvariant : Obligations.IdleInvariant := fun _ hd hi => quiet_of_idle hd hi

theorem dryOp_lines_le {m : MicroOp} {h h' : Shadow} (hd : dryOp m h = some h') (hl : h.lines ≤ 1600) :
    h'.lines ≤ 1600 := by
  cases m with
  | incLine =>
    obtain ⟨hlt, heq⟩ := Option.ite_none_right_eq_some.1 hd
    cases heq
    exact hlt
  | setFrame f => cases hd; exact Nat.zero_le _
  | cmd b | param b =>
    obtain ⟨-, heq⟩ := Option.ite_none_left_eq_some.1 hd
    cases heq
    exact hl
  | pixData b =>
    obtain ⟨-, heq⟩ := Option.ite_none_right_eq_some.1 hd
    cases heq
    exact hl
  | setPin p l | delay n | setLife l | waitBusy => cases hd; exact hl

/-- Settles O53: the dry run of the head micro-op has no value past 1600, and no other step touches the counter. -/
theorem lineCounterStaysInRange : Obligations.LineCounterStaysInRange := by
  intro s t hd hl hstep
  obtain ⟨hf, -⟩ := stepWith_next hstep
  cases hp : s.prog with
  | nil => exact (congrArg Shadow.lines (stepWith_idle_next hp hstep).1).trans_le hl
  | cons m rest =>
    cases (stepWith_busy _ hf hp).symm.trans hstep
    obtain ⟨h', hop, -⟩ := dryOp_of_disciplined hd hf hp
    obtain ⟨hshadow, -⟩ := microStep_of_dryOp (Config.busyDraw s.draws) m rest hop
    exact (congrArg Shadow.lines hshadow).trans_le (dryOp_lines_le hop hl)

end Sys2Proof.Machine
end

section
/-! PROOFS. The faults an admission row and the further checks of a line can raise, and that a line in contract raises none of
its own (R64, R140, R173, R174). -/

namespace Sys2Proof.Machine

/-- The faults the columns of the admission table raise (R140). -/
def rowFaults : List FaultCode := [.notPowered, .illegalState, .frameOpen, .frameNotOpen, .panelMismatch]

theorem mem_rowFaults_of_frameFault {need : FrameNeed} {fr : Option Panel} {f : FaultCode}
    (h : frameFault need fr = some f) : f ∈ rowFaults := by
  cases need with
  | closed | closedUnnamed => cases fr <;> cases h; decide
  | openFor p =>
    cases fr with
    | none => cases h; decide
    | some q =>
      obtain ⟨-, h⟩ := Option.ite_none_left_eq_some.1 h
      cases h
      decide

theorem mem_rowFaults_of_admitRow {r : AdmitRow} {s : State} {f : FaultCode} (h : admitRow r s = some f) :
    f ∈ rowFaults := by
  unfold admitRow at h
  split at h
  · cases h; decide
  · split at h
    · exact mem_rowFaults_of_frameFault h
    · cases h; decide

/-- The two faults of a line that breaks the operand contract (R64, R174). -/
def contractFaults : List FaultCode := [.badLineLength, .badColorCode]

theorem not_contractFault_of_mem_rowFaults : ∀ f ∈ rowFaults, f ∉ contractFaults := by decide

/-- A non-empty line in contract can only find the frame full. -/
theorem eq_frameOverflow_of_lineFault {bs : List Byte} {lines : Nat} {f : FaultCode} (hne : bs ≠ [])
    (hlen : lineLengthOk bs = true) (hval : lineBytesOk bs = true) (h : lineFault bs lines = some f) :
    f = .frameOverflow := by
  have hlen : bs.length = Config.lineBytes := by simpa [lineLengthOk, hne] using hlen
  have hval : bs.all validByte = true := hval
  simp only [lineFault, hlen, hval, Option.or_eq_some_iff] at h
  obtain (h | ⟨-, h⟩) | ⟨-, h⟩ := h
  · simp [faultIf] at h
  · exact eq_of_faultIf h
  · simp [faultIf] at h

theorem not_contractFault_of_admission {i : Instr} {s : State} {f : FaultCode} (hwf : i.wellFormed = true)
    (h : admission i s = some f) : f ∉ contractFaults := by
  obtain ⟨p, bs, rfl⟩ | ⟨p, rfl⟩ | ⟨r, hadm, -⟩ := admission_cases i
  · obtain ⟨hlen, hval⟩ := Bool.and_eq_true_iff.1 hwf
    obtain ⟨hne, h⟩ := Option.ite_none_left_eq_some.1 h
    obtain h | ⟨-, h⟩ := Option.or_eq_some_iff.1 h
    · exact not_contractFault_of_mem_rowFaults f (mem_rowFaults_of_admitRow h)
    · rw [eq_frameOverflow_of_lineFault (by simpa using hne) hlen hval h]
      decide
  · obtain h | ⟨-, h⟩ := Option.or_eq_some_iff.1 h
    · exact not_contractFault_of_mem_rowFaults f (mem_rowFaults_of_admitRow h)
    · rw [eq_of_faultIf h]
      decide
  · exact not_contractFault_of_mem_rowFaults f (mem_rowFaults_of_admitRow ((hadm s).symm.trans h))

/-- Settles O37: what an operation issues is its admission's fault or no fault at all. -/
theorem contractLineRaisesNoContractFault : Obligations.ContractLineRaisesNoContractFault := by
  intro i s t hwf h
  rw [exec_eq_issue] at h
  obtain ⟨-, hf, ⟨f, hadm, rfl⟩ | ⟨-, rfl⟩⟩ := issue_next h
  · simpa [contractFaults] using not_contractFault_of_admission hwf hadm
  · simp [hf]

end Sys2Proof.Machine
end

section
/-! PROOFS. The events a step appends to the trace (R68, R111). -/

namespace Sys2Proof.Machine

theorem length_microEvents_le (l : Level) (m : MicroOp) : (microEvents l m).length ≤ 2 := by
  cases m <;> simp [microEvents]

/-- A micro step raises a fault and emits nothing, or raises none and emits the events of its micro-op. -/
theorem microStep_raises_or_emits (l : Level) (m : MicroOp) (rest : List MicroOp) (s : State) :
    (∃ f, microStep l m rest s = raise f s) ∨
    ((microStep l m rest s).fault = s.fault ∧ (microStep l m rest s).trace = s.trace ++ microEvents l m) := by
  cases m with
  | setPin p v => exact .inr ⟨rfl, rfl⟩
  | cmd b =>
    rw [microStep_cmd]
    split
    · exact .inl ⟨_, rfl⟩
    · exact .inr ⟨rfl, rfl⟩
  | param b =>
    rw [microStep_param]
    split
    · exact .inl ⟨_, rfl⟩
    · exact .inr ⟨rfl, rfl⟩
  | pixData b =>
    rw [microStep_pixData]
    split
    · exact .inr ⟨rfl, rfl⟩
    · exact .inl ⟨_, rfl⟩
  | delay n => exact .inr ⟨rfl, rfl⟩
  | setLife v => exact .inr ⟨rfl, (List.append_nil _).symm⟩
  | setFrame f => exact .inr ⟨rfl, (List.append_nil _).symm⟩
  | incLine => exact .inr ⟨rfl, (List.append_nil _).symm⟩
  | waitBusy =>
    rw [microStep_waitBusy]
    by_cases hl : l = Config.busyActive <;> simp [microEvents, hl]

/-- Settles O57: an idle block's step leaves the trace, and a busy one's is its head's micro step. -/
theorem stepAppendsToTrace : Obligations.StepAppendsToTrace := by
  intro s t hstep
  cases hp : s.prog with
  | nil =>
    obtain ⟨-, htrace⟩ := stepWith_idle_next hp hstep
    exact ⟨[], by simp [htrace], Nat.zero_le _, fun _ => rfl, nofun⟩
  | cons m rest =>
    obtain ⟨hf, -⟩ := stepWith_next hstep
    cases (stepWith_busy _ hf hp).symm.trans hstep
    obtain ⟨f, hraise⟩ | ⟨hfault, htrace⟩ := microStep_raises_or_emits (Config.busyDraw s.draws) m rest s
    · rw [hraise]
      exact ⟨[], (List.append_nil _).symm, Nat.zero_le _, nofun, fun _ _ _ => rfl⟩
    · refine ⟨_, htrace, length_microEvents_le _ m, nofun, fun m' rest' hcons => ?_⟩
      cases hcons
      rw [if_pos (hfault.trans hf)]

end Sys2Proof.Machine
end

section
/-! PROOFS. Which operations wait on busy and which drive `RST` and `PWR` (R69, R142, R264, R265). -/

namespace Sys2Proof.Machine

/-- The micro-ops that only some operations may use: the busy wait and the writes of `RST` and `PWR`. -/
def MicroOp.isOwned : MicroOp → Bool
  | .waitBusy => true
  | .setPin .rst _ => true
  | .setPin .pwr _ => true
  | _ => false

/-- The owned micro-ops of a micro-program, in order. -/
def ownedOps (prog : List MicroOp) : List MicroOp := prog.filter MicroOp.isOwned

/-! ### The shared blocks -/

@[simp] theorem ownedOps_nil : ownedOps [] = [] := rfl

@[simp] theorem ownedOps_cons (m : MicroOp) (prog : List MicroOp) :
    ownedOps (m :: prog) = if m.isOwned then m :: ownedOps prog else ownedOps prog :=
  List.filter_cons

@[simp] theorem ownedOps_append (p q : List MicroOp) : ownedOps (p ++ q) = ownedOps p ++ ownedOps q :=
  List.filter_append ..

theorem ownedOps_eq_nil_iff (prog : List MicroOp) : ownedOps prog = [] ↔ ∀ m ∈ prog, m.isOwned = false := by
  simp [ownedOps]

theorem ownedOps_flatten_eq_nil {progs : List (List MicroOp)} (h : ∀ p ∈ progs, ownedOps p = []) :
    ownedOps progs.flatten = [] := by
  rw [ownedOps, List.filter_flatten, List.flatten_eq_nil_iff]
  exact List.forall_mem_map.2 h

@[simp] theorem ownedOps_selectProg (t : Target) : ownedOps (selectProg t) = [] := by cases t <;> rfl

@[simp] theorem ownedOps_deselectProg (t : Target) : ownedOps (deselectProg t) = [] := by cases t <;> rfl

@[simp] theorem ownedOps_params (ps : List Byte) : ownedOps (ps.map .param) = [] := by
  simp [ownedOps_eq_nil_iff, MicroOp.isOwned]

@[simp] theorem ownedOps_cmdFrame (t : Target) (c : Byte) (ps : List Byte) : ownedOps (cmdFrame t c ps) = [] := by
  simp [cmdFrame, MicroOp.isOwned]

@[simp] theorem ownedOps_beginProg (p : Panel) : ownedOps (beginProg p) = [] := by cases p <;> rfl

@[simp] theorem ownedOps_endProg (p : Panel) : ownedOps (endProg p) = [] := by cases p <;> rfl

@[simp] theorem ownedOps_lineProg (bs : List Byte) : ownedOps (lineProg bs) = [] := by
  simp [ownedOps_eq_nil_iff, lineProg, MicroOp.isOwned]

@[simp] theorem ownedOps_clearRow (c : PixelColor) : ownedOps (clearRow c) = [] := by
  simp [clearRow_eq, MicroOp.isOwned]

@[simp] theorem ownedOps_sleepProg : ownedOps sleepProg = [] := by simp [sleepProg, MicroOp.isOwned]

@[simp] theorem ownedOps_refreshProg : ownedOps refreshProg = [.waitBusy, .waitBusy] := by
  simp [refreshProg, MicroOp.isOwned]

/-! ### Every operation -/

/-- The owned micro-ops of each operation. -/
def ownedOf : Instr → List MicroOp
  | .reset =>
    [.setPin .rst Config.rstAssert, .setPin .rst Config.rstDeassert, .setPin .rst Config.rstAssert,
      .setPin .rst Config.rstDeassert, .setPin .rst Config.rstAssert]
  | .clear _ | .refreshNow | .streamImage _ => [.waitBusy, .waitBusy]
  | .powerOn => if Config.hasPowerPin then [.setPin .pwr .high] else []
  | .powerOff => if Config.hasPowerPin then [.setPin .pwr .low] else []
  | .initialise | .beginFrame _ | .writeLine _ _ | .endFrame _ | .sleep => []

theorem ownedOps_initializeProg : ownedOps initializeProg = [] := by
  have hframes : ownedOps (Config.initSeq.flatMap initFrame) = [] :=
    ownedOps_flatten_eq_nil (List.forall_mem_map.2 fun e _ => ownedOps_cmdFrame e.target e.cmd e.payload)
  simp [initializeProg, hframes, MicroOp.isOwned]

theorem ownedOps_writeLineProg (bs : List Byte) : ownedOps (writeLineProg bs) = [] := by
  unfold writeLineProg
  split <;> simp

theorem ownedOps_clearProg (c : PixelColor) : ownedOps (clearProg c) = [.waitBusy, .waitBusy] := by
  have hrows : ownedOps (List.replicate Config.panelH (clearRow c)).flatten = [] :=
    ownedOps_flatten_eq_nil fun r hr => by rw [List.eq_of_mem_replicate hr, ownedOps_clearRow]
  simp [clearProg, clearHalf, hrows]

theorem ownedOps_streamProg (img : Image) : ownedOps (streamProg img) = [.waitBusy, .waitBusy] := by
  have hrows (p : Panel) : ownedOps ((imageLines img p).flatMap lineProg) = [] :=
    ownedOps_flatten_eq_nil (List.forall_mem_map.2 fun bs _ => ownedOps_lineProg bs)
  simp [streamProg, streamHalf, hrows]

theorem ownedOps_expand (i : Instr) : ownedOps (expand i) = ownedOf i := by
  cases i with
  | reset => rfl
  | initialise => exact ownedOps_initializeProg
  | clear c => exact ownedOps_clearProg c
  | beginFrame p => exact ownedOps_beginProg p
  | writeLine p bs => exact ownedOps_writeLineProg bs
  | endFrame p => exact ownedOps_endProg p
  | refreshNow => exact ownedOps_refreshProg
  | sleep => exact ownedOps_sleepProg
  | powerOn =>
    rw [expand, powerOnProg, ownedOf]
    split <;> rfl
  | powerOff =>
    rw [expand, powerOffProg, ownedOf, ownedOps_append, ownedOps_sleepProg]
    split <;> rfl
  | streamImage img => exact ownedOps_streamProg img

/-- An owned micro-op stands in an operation's micro-program only where the operation owns it. -/
theorem mem_ownedOf_of_mem_expand {i : Instr} {m : MicroOp} (hm : m ∈ expand i) (ho : m.isOwned = true) :
    m ∈ ownedOf i :=
  ownedOps_expand i ▸ List.mem_filter.2 ⟨hm, ho⟩

theorem owner_of_waitBusy {i : Instr} (h : MicroOp.waitBusy ∈ ownedOf i) :
    i = .refreshNow ∨ (∃ c, i = .clear c) ∨ ∃ img, i = .streamImage img := by
  cases i with
  | refreshNow => exact .inl rfl
  | clear c => exact .inr (.inl ⟨c, rfl⟩)
  | streamImage img => exact .inr (.inr ⟨img, rfl⟩)
  | _ => simp [ownedOf] at h

theorem owner_of_rst {i : Instr} {l : Level} (h : MicroOp.setPin .rst l ∈ ownedOf i) : i = .reset := by
  cases i with
  | reset => rfl
  | _ => simp [ownedOf] at h

theorem owner_of_pwr {i : Instr} {l : Level} (h : MicroOp.setPin .pwr l ∈ ownedOf i) :
    Config.hasPowerPin = true ∧ ((i = .powerOn ∧ l = .high) ∨ (i = .powerOff ∧ l = .low)) := by
  cases i with
  | powerOn | powerOff => simpa [ownedOf] using h
  | _ => simp [ownedOf] at h

/-- Settles O59: each owned micro-op of an expansion stands in its operation's list, which names its owners. -/
theorem ownersOfWaitsAndPins : Obligations.OwnersOfWaitsAndPins := fun _ =>
  ⟨fun h => owner_of_waitBusy (mem_ownedOf_of_mem_expand h rfl),
   fun _ h => owner_of_rst (mem_ownedOf_of_mem_expand h rfl),
   fun _ h => owner_of_pwr (mem_ownedOf_of_mem_expand h rfl)⟩

end Sys2Proof.Machine
end

section
/-! PROOFS. The fields of an operation word, the checks of the decoder, and that decoder and encoder are inverse to each other
(R80 to R85, R93). -/

namespace Sys2Proof

/-! ### The fields of a word (R80) -/

section Fields

variable (op arg : BitVec 4) (rsv : BitVec 8)

@[simp] theorem opField_append : opField (op ++ arg ++ rsv) = op :=
  (BitVec.extractLsb'_append_eq_of_le (by decide)).trans BitVec.extractLsb'_append_eq_left

@[simp] theorem argField_append : argField (op ++ arg ++ rsv) = arg :=
  (BitVec.extractLsb'_append_eq_of_le (by decide)).trans BitVec.extractLsb'_append_eq_right

@[simp] theorem rsvField_append : rsvField (op ++ arg ++ rsv) = rsv :=
  BitVec.extractLsb'_append_eq_right

end Fields

/-- A word is its three fields, so no bit of it lies outside them. -/
theorem append_fields (w : OpWord) : opField w ++ argField w ++ rsvField w = w := by
  have hhigh : opField w ++ argField w = w.extractLsb' 8 8 :=
    BitVec.extractLsb'_append_extractLsb'_eq_extractLsb' rfl
  rw [hhigh]
  exact BitVec.extractLsb'_append_extractLsb' (w := 8) (len := 8)

/-! ### The opcode map and the arguments, read back (R81, R83 to R85) -/

@[simp] theorem opCodeOfBits_opBits (c : OpCode) : opCodeOfBits (opBits c) = some c := by
  cases c <;> rfl

@[simp] theorem panelOfArg_panelArg (p : Panel) : panelOfArg (panelArg p) = .ok p := by
  cases p <;> rfl

@[simp] theorem colorOfArg_colorArg (c : PixelColor) : colorOfArg (colorArg c) = .ok c := by
  cases c <;> rfl

@[simp] theorem withoutArg_zero (i : Instr) : withoutArg 0 i = .ok i := rfl

theorem opBits_of_opCodeOfBits {b : BitVec 4} {c : OpCode} (h : opCodeOfBits b = some c) : opBits c = b := by
  unfold opCodeOfBits at h
  split at h <;> cases h
  all_goals exact BitVec.eq_of_toNat_eq (Eq.symm ‹_›)

theorem of_map_panelOfArg {a : BitVec 4} {g : Panel → Instr} {i : Instr} (h : (panelOfArg a).map g = .ok i) :
    ∃ p, panelArg p = a ∧ g p = i := by
  unfold panelOfArg at h
  split at h <;> cases h
  all_goals exact ⟨_, BitVec.eq_of_toNat_eq (Eq.symm ‹_›), rfl⟩

theorem of_map_colorOfArg {a : BitVec 4} {g : PixelColor → Instr} {i : Instr} (h : (colorOfArg a).map g = .ok i) :
    ∃ c, colorArg c = a ∧ g c = i := by
  unfold colorOfArg at h
  split at h <;> cases h
  all_goals exact ⟨_, BitVec.eq_of_toNat_eq (Eq.symm ‹_›), rfl⟩

theorem of_withoutArg {a : BitVec 4} {i j : Instr} (h : withoutArg a i = .ok j) : a = 0 ∧ i = j := by
  unfold withoutArg at h
  split at h <;> cases h
  exact ⟨‹_›, rfl⟩

/-! ### The checks of the decoder (R82) -/

/-- Where no operation of that `OP` takes the operand, the first three checks already refuse. -/
theorem decode_eq_illegalOp {op arg : BitVec 4} {o : Operand}
    (h : ∀ c, opCodeOfBits op = some c → decodeOperands c arg o = .error .illegalOp) (rsv : BitVec 8) :
    decode (op ++ arg ++ rsv) o = .error .illegalOp := by
  unfold decode
  rw [opField_append, argField_append, rsvField_append]
  cases hc : opCodeOfBits op with
  | none => rfl
  | some c => exact (ite_congr rfl (fun _ => h c hc) fun _ => rfl).trans (ite_self _)

/-- Check 2, behind check 1 with its equal fault. -/
theorem decode_of_rsv_ne_zero {rsv : BitVec 8} (h : rsv ≠ 0) (op arg : BitVec 4) (o : Operand) :
    decode (op ++ arg ++ rsv) o = .error .illegalOp := by
  unfold decode
  rw [opField_append, rsvField_append]
  cases opCodeOfBits op with
  | none => rfl
  | some c => exact if_neg h

/-- A word of the opcode map passes the first two checks, whatever its `ARG`. -/
theorem decode_opWord (c : OpCode) (arg : BitVec 4) (o : Operand) :
    decode (opWord c arg) o = decodeOperands c arg o := by
  simp [decode, opWord]

/-- A word that decodes is one of the opcode map, and its `ARG` and operand pass checks 3 and 4. -/
theorem of_decode {w : OpWord} {o : Operand} {i : Instr} (h : decode w o = .ok i) :
    ∃ c arg, opWord c arg = w ∧ decodeOperands c arg o = .ok i := by
  unfold decode at h
  split at h
  · cases h
  · rename_i c hc
    split at h
    · rename_i hrsv
      have hw := append_fields w
      rw [hrsv, ← opBits_of_opCodeOfBits hc] at hw
      exact ⟨c, argField w, hw, h⟩
    · cases h

/-- What passes checks 3 and 4 is the encoding of the operation it gives. -/
theorem encode_of_decodeOperands {c : OpCode} {arg : BitVec 4} {o : Operand} {i : Instr}
    (h : decodeOperands c arg o = .ok i) : encode i = { word := opWord c arg, operand := o } := by
  unfold decodeOperands at h
  split at h
  -- the arms in R81's order: the third takes a colour, the next three a panel, the twelfth refuses the operand kind
  case h_3 =>
    obtain ⟨c, rfl, rfl⟩ := of_map_colorOfArg h
    rfl
  case h_4 | h_5 | h_6 =>
    obtain ⟨p, rfl, rfl⟩ := of_map_panelOfArg h
    rfl
  case h_12 => cases h
  all_goals
    obtain ⟨rfl, rfl⟩ := of_withoutArg h
    rfl

/-! ### Round trips -/

/-- Settles O2: the encoded word is one of the opcode map, so only its argument has to be read back. -/
theorem decodeOfEncode : Obligations.DecodeOfEncode := by
  intro i
  cases i with
  | clear c => exact (decode_opWord ..).trans (congrArg (Except.map _) (colorOfArg_colorArg c))
  | beginFrame p | writeLine p _ | endFrame p =>
    exact (decode_opWord ..).trans (congrArg (Except.map _) (panelOfArg_panelArg p))
  | _ => exact (decode_opWord ..).trans (withoutArg_zero _)

/-- Settles O3: the word is its three fields, and the decoder's checks fix each of them. -/
theorem encodeOfDecode : Obligations.EncodeOfDecode := by
  intro w o i h
  obtain ⟨c, arg, rfl, hops⟩ := of_decode h
  exact encode_of_decodeOperands hops

end Sys2Proof
end

section
/-! PROOFS. The words the decoder refuses, and what it reads from `ARG` (R82 to R86). -/

namespace Sys2Proof

/-! ### Refused words -/

/-- Settles O4: a reserved `OP` fails check 1, and a nonzero `RSV` check 2. -/
theorem reservedEncodingsAreIllegal : Obligations.ReservedEncodingsAreIllegal := by
  intro op arg rsv o h
  obtain rfl | rfl | rfl | rfl | rfl | hrsv := h
  on_goal 6 => exact decode_of_rsv_ne_zero hrsv op arg o
  all_goals exact decode_eq_illegalOp (by rintro _ ⟨⟩) rsv

theorem decodeOperands_bytes {c : OpCode} (h : c ≠ .writeLine) (arg : BitVec 4) (bs : List Byte) :
    decodeOperands c arg (.bytes bs) = .error .illegalOp := by
  cases c with
  | writeLine => exact absurd rfl h
  | _ => rfl

theorem decodeOperands_image {c : OpCode} (h : c ≠ .streamImage) (arg : BitVec 4) (img : Image) :
    decodeOperands c arg (.image img) = .error .illegalOp := by
  cases c with
  | streamImage => exact absurd rfl h
  | _ => rfl

/-- An `OP` other than an operation's own does not map to it. -/
theorem ne_of_opCodeOfBits {b : BitVec 4} {c d : OpCode} (hb : b ≠ opBits d) (hc : opCodeOfBits b = some c) : c ≠ d :=
  fun hcd => hb (hcd ▸ (opBits_of_opCodeOfBits hc).symm)

/-- Settles O5: `OP` names no operation or one that takes another kind of operand. -/
theorem wrongOperandKindIsIllegal : Obligations.WrongOperandKindIsIllegal := by
  refine fun op arg rsv => ⟨?absent, fun hop bs => ?bytes, fun hop img => ?image⟩
  case absent =>
    rintro (rfl | rfl) <;> exact decode_eq_illegalOp (by rintro _ ⟨⟩; rfl) rsv
  case bytes => exact decode_eq_illegalOp (fun c hc => decodeOperands_bytes (ne_of_opCodeOfBits hop hc) arg bs) rsv
  case image => exact decode_eq_illegalOp (fun c hc => decodeOperands_image (ne_of_opCodeOfBits hop hc) arg img) rsv

/-- Settles O1: each word is closed, and the decoder evaluates on it. -/
theorem vectorWordsDecode : Obligations.VectorWordsDecode :=
  ⟨rfl, rfl, rfl, rfl, rfl, rfl, rfl, rfl, rfl, rfl, rfl, rfl⟩

/-! ### The argument -/

theorem panelOfArg_eq_ite (a : BitVec 4) :
    panelOfArg a = if a = 0 then .ok .master else if a = 1 then .ok .slave else .error .badPanel := by
  by_cases h0 : a = 0
  · subst h0; rfl
  by_cases h1 : a = 1
  · subst h1; rfl
  rw [if_neg h0, if_neg h1, panelOfArg]
  split
  · exact absurd (BitVec.eq_of_toNat_eq ‹_›) h0
  · exact absurd (BitVec.eq_of_toNat_eq ‹_›) h1
  · rfl

theorem colorOfArg_of_six_le {a : BitVec 4} (h : 6 ≤ a.toNat) : colorOfArg a = .error .badColor := by
  unfold colorOfArg
  split
  case h_7 => rfl
  all_goals omega

/-- Settles O6: the three operations hand their `ARG` to one panel check. -/
theorem panelArgument : Obligations.PanelArgument := by
  intro arg bs panel
  have hpanel : panelOfArg arg = panel := panelOfArg_eq_ite arg
  rw [← hpanel]
  exact ⟨decode_opWord .beginFrame arg .absent, decode_opWord .writeLine arg (.bytes bs),
    decode_opWord .endFrame arg .absent⟩

/-- Settles O7: a colour's word is its encoding, which decodes back; past the six indices the colour check refuses. -/
theorem colourArgument : Obligations.ColourArgument := by
  refine ⟨fun c => decodeOfEncode (.clear c), fun arg harg => ?_, rfl⟩
  exact (decode_opWord .clear arg .absent).trans (congrArg (Except.map _) (colorOfArg_of_six_le harg))

/-- Settles O8: the seven operations hand their `ARG` to one check for 0. -/
theorem argumentMustBeZero : Obligations.ArgumentMustBeZero := fun arg img =>
  ⟨decode_opWord .reset arg .absent, decode_opWord .initialise arg .absent, decode_opWord .refreshNow arg .absent,
   decode_opWord .sleep arg .absent, decode_opWord .powerOn arg .absent, decode_opWord .powerOff arg .absent,
   decode_opWord .streamImage arg (.image img)⟩

end Sys2Proof
end

section
/-! PROOFS. The step on a word the decoder refuses (R82, R123, R232), and what a step that sends a byte found (R90, R92). -/

namespace Sys2Proof.Machine

/-- Settles O11: the idle block takes the operation and raises the fault, with no micro-program to empty. -/
theorem decodeFaultIsRaised : Obligations.DecodeFaultIsRaised := by
  rintro s op more f ⟨hp, hf⟩ hops hd
  rw [step, stepWith_idle _ hf hp, idleStep, hops]
  simp only [hostStep, hd, raise, hp]

/-- A micro-op that sends a byte raises a fault where no chip select is asserted (R113 to R115). -/
theorem microStep_raises_of_unselected {l : Level} {m : MicroOp} {s : State} {tag : Tag} {b : Byte}
    (hb : .byte tag b ∈ microEvents l m) (hn : nsel s.pin = 0) (rest : List MicroOp) :
    ∃ f, microStep l m rest s = raise f s := by
  cases m with
  | cmd c => exact ⟨.noTarget, by rw [microStep_cmd, if_pos hn]⟩
  | param c => exact ⟨.noTarget, by rw [microStep_param, if_pos hn]⟩
  | pixData c =>
    have ha : ¬ pixelAllowed s.frame s.pin = true := by
      cases s.frame with
      | none => simp
      | some p => exact fun h => nsel_ne_zero_of_selected ((pixelAllowed_some_iff _ p).1 h).1 hn
    exact ⟨.csConflict, by rw [microStep_pixData, if_neg ha]⟩
  | _ => simp [microEvents] at hb

theorem eq_cmd_of_mem_microEvents {l : Level} {m : MicroOp} {b : Byte} (h : .byte .cmd b ∈ microEvents l m) :
    m = .cmd b := by
  cases m with
  | cmd c => simpa [microEvents, eq_comm] using h
  | _ => simp [microEvents] at h

/-- A step that appends a byte runs the micro-op that sends it, without a fault. -/
theorem head_of_byte {s t : State} {es : List Event} {tag : Tag} {b : Byte} (hstep : step s = .next t)
    (htrace : t.trace = s.trace ++ es) (hb : .byte tag b ∈ es) :
    ∃ m rest, s.prog = m :: rest ∧ t = microStep (Config.busyDraw s.draws) m rest s ∧ t.fault = none ∧
      .byte tag b ∈ microEvents (Config.busyDraw s.draws) m := by
  obtain ⟨es', htrace', -, hidle, hbusy⟩ := stepAppendsToTrace s t hstep
  obtain rfl : es = es' := List.append_cancel_left (htrace.symm.trans htrace')
  obtain ⟨hf, -⟩ := stepWith_next hstep
  cases hp : s.prog with
  | nil => simp [hidle hp] at hb
  | cons m rest =>
    rw [hbusy m rest hp, List.mem_ite_nil_right] at hb
    obtain ⟨hft, hb⟩ := hb
    cases (stepWith_busy _ hf hp).symm.trans hstep
    exact ⟨m, rest, rfl, rfl, hft, hb⟩

/-- Settles O55: with no chip select the head micro-op would raise a fault, and a command byte stands in the micro-program. -/
theorem byteEventsAreLegal : Obligations.ByteEventsAreLegal := by
  rintro s t es tag b ⟨-, hcmd⟩ hstep htrace hb
  obtain ⟨m, rest, hp, rfl, hft, hb⟩ := head_of_byte hstep htrace hb
  constructor
  · by_contra hsel
    have hn : nsel s.pin = 0 := by simpa [nsel_eq_zero_iff] using hsel
    obtain ⟨f, hraise⟩ := microStep_raises_of_unselected hb hn rest
    simp [hraise] at hft
  · rintro rfl
    obtain rfl := eq_cmd_of_mem_microEvents hb
    exact hcmd b (by simp [hp])

end Sys2Proof.Machine
end

section
/-! PROOFS. What a faulted, a busy and an idle block answer, and the frame of an operation (R110, R123 to R125, R231, R232,
R262). -/

namespace Sys2Proof.Machine

/-! ### Operations on a faulted, a busy and an idle block -/

theorem issue_busy {s : State} (hf : s.fault = none) (hp : s.prog ≠ []) (a : Option FaultCode) (q : List MicroOp) :
    issue a q s = .refused .hostStepWhileBusy := by
  obtain ⟨m, rest, hp⟩ := List.exists_cons_of_ne_nil hp
  simp [issue, hf, hp]

theorem exec_faulted {s : State} {f : FaultCode} (hf : s.fault = some f) (i : Instr) : exec i s = .fault (.halted f) := by
  rw [exec_eq_issue, issue_faulted hf]

theorem exec_busy {s : State} (hf : s.fault = none) (hp : s.prog ≠ []) (i : Instr) :
    exec i s = .refused .hostStepWhileBusy := by
  rw [exec_eq_issue, issue_busy hf hp]

theorem exec_of_admission_none {s : State} {i : Instr} (hs : s.Idle) (ha : admission i s = none) :
    exec i s = .next { s with prog := expand i } := by
  rw [exec_eq_issue, issue_idle hs.1 hs.2, ha]
  rfl

/-- An idle block has no micro-program to empty, so an admission fault sets the fault register only. -/
theorem exec_of_admission_some {s : State} {i : Instr} {f : FaultCode} (hs : s.Idle) (ha : admission i s = some f) :
    exec i s = .next { s with fault := some f } := by
  rw [exec_eq_issue, issue_idle hs.1 hs.2, ha, issueState_some, raise, ← hs.1]

/-! ### The host step -/

theorem stepWith_offered (draw : Nat → Level) {s : State} {op : HostOp} {more : List HostOp} (hs : s.Idle)
    (hops : s.hostOps = op :: more) : stepWith draw s = hostStep op { s with hostOps := more } := by
  rw [stepWith_idle draw hs.2 hs.1, idleStep, hops]

theorem hostStep_of_decode {op : HostOp} {i : Instr} (hd : decode op.word op.operand = .ok i) (s : State) :
    hostStep op s = exec i s := by
  rw [hostStep, hd]

/-- Settles O10: the idle block's step is the host step of the operation it takes. -/
theorem stepRunsDecodedOperation : Obligations.StepRunsDecodedOperation := by
  intro s op more i hs hops hd
  rw [step, stepWith_offered _ hs hops, hostStep_of_decode hd]

/-- Settles O12: with nothing offered the idle step answers its own state. -/
theorem finalBlockWaits : Obligations.FinalBlockWaits := fun _ => stepWith_final

/-- Settles O13: step and issue look at the fault register first, and a final block is idle. -/
theorem faultedBlockHasNoStep : Obligations.FaultedBlockHasNoStep := by
  intro s f hf
  have hnotFinal : ¬ s.Final := fun ⟨_, _, hnone⟩ => by simp [hf] at hnone
  exact ⟨stepWith_faulted _ hf, exec_faulted hf, hnotFinal, blockReset_fault s⟩

/-- Settles O14: the issue finds a micro-op left, and the step runs it. -/
theorem noHostStepWhileBusy : Obligations.NoHostStepWhileBusy := by
  intro s hf hp
  obtain ⟨m, rest, hcons⟩ := List.exists_cons_of_ne_nil hp
  exact ⟨exec_busy hf hp, _, stepWith_busy _ hf hcons, microStep_hostOps _ m rest s⟩

/-- Settles O21: an issue that answers a next state raises a fault or sets the micro-program. -/
theorem execFrame : Obligations.ExecFrame := by
  intro i s t h
  rw [exec_eq_issue] at h
  obtain ⟨-, hf, ⟨f, -, rfl⟩ | ⟨-, rfl⟩⟩ := issue_next h
  · exact ⟨rfl, rfl, rfl, rfl, rfl, rfl, rfl, .inr rfl⟩
  · exact ⟨rfl, rfl, rfl, rfl, rfl, rfl, rfl, .inl hf⟩

end Sys2Proof.Machine
end

section
/-! PROOFS. The micro step and the nine micro-operations (R111 to R120, R237). -/

namespace Sys2Proof.Machine

/-- Settles O15: a micro step faults, leaves the rest, or stays at a `WAITBUSY` that samples busy. -/
theorem microStepRunsOneMicroOp : Obligations.MicroStepRunsOneMicroOp := by
  intro draw s m rest hf hp
  refine ⟨_, stepWith_busy draw hf hp, ?_⟩
  split
  case isTrue hwait =>
    obtain ⟨rfl, hbusy⟩ := hwait
    rw [microStep_waitBusy, if_pos hbusy]
    exact ⟨hf, hp.symm⟩
  case isFalse hwait =>
    obtain ⟨f, -, hraise⟩ | ⟨hfault, hprog | ⟨hm, hbusy, -⟩, -⟩ := microStep_cases (draw s.draws) m rest s
    · rw [hraise]
      exact .inr ⟨Option.some_ne_none f, rfl⟩
    · exact .inl ⟨hfault.trans hf, hprog⟩
    · exact absurd ⟨hm, hbusy⟩ hwait

/-! ### Pins, delays and registers (R112, R116 to R119) -/

theorem pinLatch_drivePins (ps : Pins) (p q : Pin) (l : Level) :
    pinLatch (drivePins ps p l) q = if q = p then some l else pinLatch ps q := by
  split
  case isTrue h => rw [h, pinLatch_drivePins_same]
  case isFalse h => exact pinLatch_drivePins_ne ps h l

/-- Settles O16: the micro step drives the pin and emits the event without looking at the old level. -/
theorem setPinMicroOp : Obligations.SetPinMicroOp := fun s p l _ hf hp =>
  ⟨drivePins s.pin p l, fun q => pinLatch_drivePins s.pin p q l, stepWith_busy _ hf hp⟩

/-- A disciplined block counts no line past the last one: the dry run of `INCLINE` has no value there. -/
theorem lines_lt_of_disciplined_incLine {s : State} {rest : List MicroOp} (hd : s.Disciplined) (hf : s.fault = none)
    (hp : s.prog = .incLine :: rest) : s.lines < 1600 := by
  obtain ⟨h', hop, -⟩ := dryOp_of_disciplined hd hf hp
  exact (Option.ite_none_right_eq_some.1 hop).1

/-- Settles O19: none of the four has a check, and the bound is discipline's. -/
theorem delayAndRegisterMicroOps : Obligations.DelayAndRegisterMicroOps := fun _ _ hf =>
  ⟨fun _ hp => stepWith_busy _ hf hp, fun _ hp => stepWith_busy _ hf hp, fun _ hp => stepWith_busy _ hf hp,
    fun hp => stepWith_busy _ hf hp, fun hp hd => lines_lt_of_disciplined_incLine hd hf hp⟩

/-! ### Bytes (R113 to R115) -/

theorem nsel_eq_zero_iff_latches (ps : Pins) :
    nsel ps = 0 ↔ pinLatch ps .csM ≠ some Config.csActive ∧ pinLatch ps .csS ≠ some Config.csActive := by
  rw [nsel_eq_zero_iff, ← Bool.not_eq_true, ← Bool.not_eq_true, selected_iff, selected_iff]
  rfl

/-- Settles O17: `CMD` and `PARAM` look at the count of chip selects, which is 0 where neither latch is active. -/
theorem commandAndPayloadBytes : Obligations.CommandAndPayloadBytes := by
  intro s b rest hf t
  have hsent (e : Event) : (if nsel s.pin = 0 then raise .noTarget s else emit e (setProg rest s)) = t e :=
    if_congr (nsel_eq_zero_iff_latches s.pin) rfl rfl
  constructor <;> intro hp <;> rw [step, stepWith_busy _ hf hp]
  · rw [microStep_cmd, hsent]
  · rw [microStep_param, hsent]

theorem pixelAllowed_iff (fr : Option Panel) (ps : Pins) :
    pixelAllowed fr ps = true ↔ ∃ p, fr = some p ∧ selected ps p = true ∧ selected ps (otherPanel p) = false := by
  cases fr with
  | none => simp
  | some p => simp [pixelAllowed_some_iff]

/-- The dry run of `PIXDATA` has no value where the check fails, so it cannot fail in a disciplined block. -/
theorem pixelAllowed_of_disciplined {s : State} {b : Byte} {rest : List MicroOp} (hd : s.Disciplined)
    (hf : s.fault = none) (hp : s.prog = .pixData b :: rest) : pixelAllowed s.frame s.pin = true := by
  obtain ⟨h', hop, -⟩ := dryOp_of_disciplined hd hf hp
  exact (Option.ite_none_right_eq_some.1 hop).1

/-- Settles O18: the condition on frame and selects is `PIXDATA`'s check. -/
theorem pixelByteNeedsItsChipSelect : Obligations.PixelByteNeedsItsChipSelect := by
  intro s b rest hf hp
  rw [← pixelAllowed_iff, step, stepWith_busy _ hf hp, microStep_pixData]
  refine ⟨fun hallowed => ?_, fun hnot => ?_, fun hd => pixelAllowed_of_disciplined hd hf hp⟩
  · rw [if_pos hallowed]; rfl
  · rw [if_neg hnot]; rfl

/-! ### The busy wait (R120, R237) -/

section BusyWait

variable {draw : Nat → Level} {s : State} {rest : List MicroOp} (hf : s.fault = none) (hp : s.prog = .waitBusy :: rest)
include hf hp

theorem stepWith_waitBusy_busy (hbusy : draw s.draws = Config.busyActive) :
    stepWith draw s = .next
      { s with draws := s.draws + 1, trace := s.trace ++ [.sampleBusy (draw s.draws), .delay Config.tPollMs] } := by
  rw [stepWith_busy draw hf hp, microStep_waitBusy, if_pos hbusy, List.append_assoc, ← hp]
  rfl

theorem stepWith_waitBusy_clear (hclear : draw s.draws ≠ Config.busyActive) :
    stepWith draw s = .next
      { s with
        draws := s.draws + 1
        trace := s.trace ++ [.sampleBusy (draw s.draws), .delay Config.tSettleMs]
        prog := rest } := by
  rw [stepWith_busy draw hf hp, microStep_waitBusy, if_neg hclear, List.append_assoc]
  rfl

/-- On a stuck busy line the wait never leaves the micro-program: each step is one more sample and poll delay. -/
theorem runWith_waitBusy_stuck (hstuck : ∀ n, draw (s.draws + n) = Config.busyActive) (n : Nat) :
    runWith draw n s = .next { s with draws := s.draws + n, trace := s.trace ++ pollEvents n } := by
  induction n generalizing s with
  | zero => simp [pollEvents]
  | succ n ih =>
    have hnow : draw s.draws = Config.busyActive := hstuck 0
    have hlater (k : Nat) : draw (s.draws + 1 + k) = Config.busyActive := by
      rw [Nat.add_assoc]
      exact hstuck (1 + k)
    rw [runWith_succ_of_next (stepWith_waitBusy_busy hf hp hnow), ih (by exact hf) (by exact hp) hlater, hnow]
    simp [pollEvents, Nat.add_assoc, Nat.add_comm 1]

end BusyWait

/-- Settles O20: the two kinds of sample, the wait that ends, and the wait that does not. -/
theorem busyWaitMicroOp : Obligations.BusyWaitMicroOp := by
  intro draw s rest hf hp
  refine ⟨?_, fun k hk => reaches_waitBusy k s rest hf hp hk, runWith_waitBusy_stuck hf hp⟩
  split
  case isTrue hbusy => exact stepWith_waitBusy_busy hf hp hbusy
  case isFalse hclear => exact stepWith_waitBusy_clear hf hp hclear

end Sys2Proof.Machine
end

section
/-! PROOFS. Rows of the admission table that want no frame open, and `REFRESH_NOW` (R122, R140, R145, R146). -/

namespace Sys2Proof.Machine

/-- A row without a power column that wants no frame open: the lifecycle column comes before the frame column (R140). -/
theorem admitRow_closed (lives : List Life) (s : State) :
    admitRow { needsPower := false, lives := lives, frame := .closed } s =
      if s.life ∈ lives ∧ s.frame = none then none
      else some (if s.life ∉ lives then .illegalState else .frameOpen) := by
  by_cases hl : s.life ∈ lives <;> cases hfr : s.frame <;> simp [admitRow, frameFault, hl, hfr]

/-- `REFRESH_NOW`'s row. -/
theorem admitRefreshNow_eq (s : State) :
    admitRefreshNow s =
      if (s.life = .ready ∨ s.life = .streaming) ∧ s.frame = none then none
      else some (if s.life ≠ .ready ∧ s.life ≠ .streaming then .illegalState else .frameOpen) := by
  simp [admitRefreshNow, admitRow_closed]

/-- Settles O28: the word by decoding its encoding, the admission by its row, the run by issue and refresh program. -/
theorem refreshNowOperation : Obligations.RefreshNowOperation := by
  refine ⟨decodeOfEncode .refreshNow, fun s hs hl hfr => ?_, fun s hs h => ?_, ?_⟩
  · exact exec_of_admission_none hs ((admitRefreshNow_eq s).trans (if_pos ⟨hl, hfr⟩))
  · exact exec_of_admission_some hs ((admitRefreshNow_eq s).trans (if_neg h))
  · intro draw s more k1 k2 hs hl hfr h1 h2
    have ha : admitRefreshNow { s with hostOps := more } = none := (admitRefreshNow_eq _).trans (if_pos ⟨hl, hfr⟩)
    have hrun := (Reaches.of_offered hs more (decodeOfEncode .refreshNow) ha).trans
      (reaches_refreshProg { s with hostOps := more, prog := refreshProg } k1 k2 hs.2 rfl h1 h2)
    rwa [← hs.1] at hrun

end Sys2Proof.Machine
end

section
/-! PROOFS. Under the fairness premise every run ends: a micro-program runs dry or faults, and each host step takes one
operation from the host program (R125, R273). -/

namespace Sys2Proof.Machine

variable {draw : Nat → Level}

/-- From any draw on, a fair oracle gives a busy wait that ends: it is busy up to the first draw that is not. -/
theorem Fair.exists_busyFor (hfair : Fair draw) (first : Nat) : ∃ k, BusyFor draw first k := by
  have hlater : ∃ k, draw (first + k) ≠ Config.busyActive := by
    obtain ⟨m, hle, hm⟩ := hfair first
    exact ⟨m - first, by rwa [Nat.add_sub_cancel' hle]⟩
  exact ⟨Nat.find hlater, fun j hj => not_not.1 (Nat.find_min hlater hj), Nat.find_spec hlater⟩

/-- The head micro-op is done in finitely many steps: it leaves the rest of the micro-program or a fault. -/
theorem Fair.reaches_rest (hfair : Fair draw) {s : State} {m : MicroOp} {rest : List MicroOp} (hf : s.fault = none)
    (hp : s.prog = m :: rest) :
    ∃ t, Reaches draw s t ∧ t.hostOps = s.hostOps ∧ (t.fault ≠ none ∨ t.fault = none ∧ t.prog = rest) := by
  by_cases hm : m = .waitBusy
  · subst hm
    obtain ⟨k, hk⟩ := hfair.exists_busyFor s.draws
    exact ⟨_, reaches_waitBusy k s rest hf hp hk, rfl, .inr ⟨hf, rfl⟩⟩
  · refine ⟨_, .of_micro hf hp, microStep_hostOps .., ?_⟩
    obtain ⟨f, -, hraise⟩ | ⟨hfault, hprog | ⟨hwait, -⟩, -⟩ := microStep_cases (draw s.draws) m rest s
    · exact .inl (by simp [hraise])
    · exact .inr ⟨hfault.trans hf, hprog⟩
    · exact absurd hwait hm

/-- A micro-program, whatever it is, ends in finitely many steps, idle or faulted. -/
theorem Fair.reaches_idle (hfair : Fair draw) (s : State) :
    ∃ t, Reaches draw s t ∧ t.hostOps = s.hostOps ∧ (t.fault ≠ none ∨ t.Idle) := by
  by_cases hf : s.fault = none
  case neg => exact ⟨s, .refl s, rfl, .inl hf⟩
  induction hp : s.prog generalizing s with
  | nil => exact ⟨s, .refl s, rfl, .inr ⟨hp, hf⟩⟩
  | cons m rest ih =>
    obtain ⟨t, hst, hops, hfault | ⟨hft, hpt⟩⟩ := hfair.reaches_rest hf hp
    · exact ⟨t, hst, hops, .inl hfault⟩
    · obtain ⟨u, htu, hops', hu⟩ := ih t hft hpt
      exact ⟨u, hst.trans htu, hops'.trans hops, hu⟩

/-- Whatever the operation decodes to, the host step answers a next state and leaves the host program after it. -/
theorem exists_stepWith_offered {s : State} {op : HostOp} {more : List HostOp} (hs : s.Idle)
    (hops : s.hostOps = op :: more) : ∃ t, stepWith draw s = .next t ∧ t.hostOps = more := by
  rw [stepWith_offered draw hs hops]
  cases hd : decode op.word op.operand with
  | error f => exact ⟨_, by rw [hostStep, hd], rfl⟩
  | ok i =>
    rw [hostStep_of_decode hd]
    cases ha : admission i { s with hostOps := more } with
    | none => exact ⟨_, exec_of_admission_none hs ha, rfl⟩
    | some f => exact ⟨_, exec_of_admission_some hs ha, rfl⟩

/-- Settles O60, by induction on the host program: the block comes to rest, and then takes the next operation. -/
theorem fairRunsEnd : Obligations.FairRunsEnd := by
  intro draw hfair s
  induction hops : s.hostOps generalizing s with
  | nil =>
    obtain ⟨t, hst, htops, hfault | hidle⟩ := hfair.reaches_idle s
    · exact ⟨t, hst, .inr hfault⟩
    · exact ⟨t, hst, .inl ⟨htops.trans hops, hidle⟩⟩
  | cons op more ih =>
    obtain ⟨t, hst, htops, hfault | hidle⟩ := hfair.reaches_idle s
    · exact ⟨t, hst, .inr hfault⟩
    · obtain ⟨u, htu, huops⟩ := exists_stepWith_offered (draw := draw) hidle (htops.trans hops)
      obtain ⟨v, huv, hv⟩ := ih u huops
      exact ⟨v, hst.trans (.trans (.of_step htu) huv), hv⟩

end Sys2Proof.Machine
end

section
/-! PROOFS. The admission rows of the lifecycle operations, and the run of an admitted operation from where the host offers it
(R123, R140, R141, R143, R147 to R149). -/

namespace Sys2Proof.Machine

/-! ### Admission rows -/

/-- The power column comes before the others (R140). -/
theorem admitRow_needsPower (lives : List Life) (need : FrameNeed) (s : State) :
    admitRow { needsPower := true, lives := lives, frame := need } s =
      if powered s.pin = false then some .notPowered
      else admitRow { needsPower := false, lives := lives, frame := need } s := by
  cases hp : powered s.pin <;> simp [admitRow, hp]

/-- Where the frame column names no fault, a row without a power column has one fault for both its columns (log entry 8). -/
theorem admitRow_closedUnnamed (lives : List Life) (s : State) :
    admitRow { needsPower := false, lives := lives, frame := .closedUnnamed } s =
      if s.life ∈ lives ∧ s.frame = none then none else some .illegalState := by
  by_cases hl : s.life ∈ lives <;> cases hfr : s.frame <;> simp [admitRow, frameFault, hl, hfr]

/-- `RESET`'s row lists every lifecycle state but `PoweredOff`. -/
theorem mem_resetLives_iff (v : Life) :
    v ∈ [Life.uninitialized, .resetting, .configuring, .ready, .streaming, .refreshing, .sleeping] ↔ v ≠ .poweredOff := by
  cases v <;> decide

theorem admitReset_eq (s : State) :
    admitReset s =
      if powered s.pin = true ∧ s.life ≠ .poweredOff ∧ s.frame = none then none
      else some
        (if powered s.pin = false then .notPowered else if s.life = .poweredOff then .illegalState else .frameOpen) := by
  rw [admitReset, admitRow_needsPower, admitRow_closed]
  simp only [mem_resetLives_iff, not_not]
  cases powered s.pin <;> simp

theorem admitInitialize_eq (s : State) :
    admitInitialize s =
      if s.life = .resetting ∧ s.frame = none then none
      else some (if s.life ≠ .resetting then .illegalState else .frameOpen) := by
  simp [admitInitialize, admitRow_closed]

theorem admitSleep_eq (s : State) :
    admitSleep s = if s.life = .ready ∧ s.frame = none then none else some .illegalState := by
  simp [admitSleep, admitRow_closedUnnamed]

theorem admitPowerOn_eq (s : State) :
    admitPowerOn s =
      if (s.life = .uninitialized ∨ s.life = .poweredOff) ∧ s.frame = none then none else some .illegalState := by
  simp [admitPowerOn, admitRow_closedUnnamed]

theorem admitPowerOff_eq (s : State) :
    admitPowerOff s =
      if (s.life = .ready ∨ s.life = .sleeping) ∧ s.frame = none then none else some .illegalState := by
  simp [admitPowerOff, admitRow_closedUnnamed]

/-! ### The run of an admitted operation -/

/-- Admission does not look at the host program. -/
theorem admission_hostOps (i : Instr) (s : State) (more : List HostOp) :
    admission i { s with hostOps := more } = admission i s := by
  cases i <;> rfl

/-- An offered operation that is admitted runs as its expansion does. -/
theorem Reaches.of_admitted {draw : Nat → Level} {s t : State} {i : Instr} {more : List HostOp} (hs : s.Idle)
    (ha : admission i s = none) (hrun : Reaches draw { s with hostOps := more, prog := expand i } t) :
    Reaches draw (s.offered i more) t :=
  (Reaches.of_offered hs more (decodeOfEncode i) ((admission_hostOps i s more).trans ha)).trans hrun

end Sys2Proof.Machine
end

section
/-! PROOFS. `RESET`: the double pulse on the reset line (R141, R142). -/

namespace Sys2Proof.Machine

variable {draw : Nat → Level}

theorem reaches_resetPulse (l : Level) (ms : Nat) (s : State) (q : List MicroOp) (hf : s.fault = none)
    (hp : s.prog = resetPulse l ms ++ q) :
    Reaches draw s
      { s with
        prog := q
        pin := { s.pin with rst := some l }
        trace := s.trace ++ [.setPin .rst l, .delay ms] } := by
  refine (reaches_setPin s _ hf _ _ hp).trans ?_
  refine (reaches_delay _ q (by exact hf) _ rfl).trans ?_
  simpa [drivePins] using Reaches.refl _

/-- The five pulses, of which the last leaves the reset line at the run level. -/
theorem reaches_resetProg (s : State) (hf : s.fault = none) (hp : s.prog = resetProg) :
    Reaches draw s
      { s with
        prog := []
        life := .resetting
        pin := { s.pin with rst := some Config.rstAssert }
        trace := s.trace ++ resetEvents } := by
  refine (reaches_setLife s _ hf _ hp).trans ?_
  refine (reaches_resetPulse _ _ _ _ (by exact hf) rfl).trans ?_
  refine (reaches_resetPulse _ _ _ _ (by exact hf) rfl).trans ?_
  refine (reaches_resetPulse _ _ _ _ (by exact hf) rfl).trans ?_
  refine (reaches_resetPulse _ _ _ _ (by exact hf) rfl).trans ?_
  refine (reaches_resetPulse _ _ _ [] (by exact hf) rfl).trans ?_
  simpa [resetEvents] using Reaches.refl _

/-- Settles O26: the word by decoding its encoding, the admission by its row, the run by issue and the five pulses. -/
theorem resetOperation : Obligations.ResetOperation := by
  refine ⟨decodeOfEncode .reset, fun s hs hpow hl hfr => ?_, fun s hs h => ?_, fun draw s more hs hpow hl hfr => ?_⟩
  · exact exec_of_admission_none hs ((admitReset_eq s).trans (if_pos ⟨hpow, hl, hfr⟩))
  · exact exec_of_admission_some hs ((admitReset_eq s).trans (if_neg h))
  · rw [hs.1]
    exact .of_admitted hs ((admitReset_eq s).trans (if_pos ⟨hpow, hl, hfr⟩)) (reaches_resetProg _ hs.2 rfl)

end Sys2Proof.Machine
end

section
/-! PROOFS. `INITIALIZE`: the command frames of the configuration sequence, and the latches after them (R88, R143, R144). -/

namespace Sys2Proof.Machine

variable {draw : Nat → Level}

/-! ### The latches around command frames -/

theorem pinLatch_driveTarget (ps : Pins) (t : Target) (l : Level) (p : Pin) :
    pinLatch (driveTarget ps t l) p = if p ∈ targetPins t then some l else pinLatch ps p := by
  cases t <;> cases p <;> rfl

theorem replayPins_data (ps : Pins) (bs : List Byte) : replayPins ps (bs.map (.byte .data)) = ps := by
  induction bs with
  | nil => rfl
  | cons b bs ih => exact ih

/-- The pin writes of a command frame's framing are the ones its micro-program makes. -/
theorem replayPins_commandFrameEvents (ps : Pins) (t : Target) (c : Byte) (bs : List Byte) :
    replayPins ps (commandFrameEvents t c bs) =
      driveTarget (driveTarget ps t Config.csActive) t Config.csInactive := by
  rw [commandFrameEvents, replayPins_append, replayPins_append, replayPins, replayPins_data]
  cases t <;> rfl

/-- A command frame leaves its target's selects inactive and every other pin as it was. -/
theorem pinLatch_replayPins_commandFrameEvents (ps : Pins) (t : Target) (c : Byte) (bs : List Byte) (p : Pin) :
    pinLatch (replayPins ps (commandFrameEvents t c bs)) p =
      if p ∈ targetPins t then some Config.csInactive else pinLatch ps p := by
  rw [replayPins_commandFrameEvents, pinLatch_driveTarget, pinLatch_driveTarget]
  split <;> rfl

/-! ### The frames of a list of entries -/

/-- The command frames of configuration entries, in list order (R143). -/
def initEvents (es : List Config.InitEntry) : List Event :=
  es.flatMap fun e => commandFrameEvents e.target e.cmd e.payload

theorem initEvents_cons (e : Config.InitEntry) (es : List Config.InitEntry) :
    initEvents (e :: es) = commandFrameEvents e.target e.cmd e.payload ++ initEvents es :=
  List.flatMap_cons

theorem pinLatch_replayPins_initEvents (ps : Pins) (es : List Config.InitEntry) (p : Pin) :
    pinLatch (replayPins ps (initEvents es)) p =
      if ∃ e ∈ es, p ∈ targetPins e.target then some Config.csInactive else pinLatch ps p := by
  induction es generalizing ps with
  | nil => simp [initEvents, replayPins]
  | cons e es ih =>
    rw [initEvents_cons, replayPins_append, ih, pinLatch_replayPins_commandFrameEvents]
    by_cases he : p ∈ targetPins e.target <;> simp [he]

theorem replayPins_initEvents_of_bothInactive {ps : Pins} (h : ps.BothInactive) (es : List Config.InitEntry) :
    replayPins ps (initEvents es) = ps := by
  induction es with
  | nil => rfl
  | cons e es ih =>
    rw [initEvents_cons, replayPins_append, replayPins_commandFrameEvents, driveTarget_of_bothInactive h, ih]

/-- A command frame asserts its own target first, so the frames raise no fault whatever the latches. -/
theorem reaches_initFrames (es : List Config.InitEntry) (s : State) (q : List MicroOp) (hf : s.fault = none)
    (hp : s.prog = es.flatMap initFrame ++ q) :
    Reaches draw s
      { s with
        prog := q
        pin := replayPins s.pin (initEvents es)
        trace := s.trace ++ initEvents es } := by
  induction es generalizing s with
  | nil =>
    obtain rfl : s.prog = q := hp
    simpa [initEvents, replayPins] using Reaches.refl s
  | cons e es ih =>
    rw [List.flatMap_cons, List.append_assoc] at hp
    refine (reaches_cmdFrame s _ hf e.target e.cmd e.payload hp).trans ?_
    refine (ih _ (by exact hf) rfl).trans ?_
    rw [← replayPins_commandFrameEvents s.pin e.target e.cmd e.payload, ← replayPins_append, List.append_assoc,
      ← initEvents_cons]
    exact .refl _

theorem reaches_initializeProg (s : State) (hf : s.fault = none) (hp : s.prog = initializeProg) :
    Reaches draw s
      { s with
        prog := []
        life := .ready
        pin := replayPins s.pin (initEvents Config.initSeq)
        trace := s.trace ++ initEvents Config.initSeq } := by
  refine (reaches_setLife s (Config.initSeq.flatMap initFrame ++ [MicroOp.setLife .ready]) hf .configuring hp).trans ?_
  refine (reaches_initFrames _ _ _ (by exact hf) rfl).trans ?_
  exact reaches_setLife _ [] (by exact hf) _ rfl

/-! ### The operation -/

theorem reaches_initialise {s : State} (more : List HostOp) (hs : s.Idle) (hl : s.life = .resetting)
    (hfr : s.frame = none) :
    Reaches draw (s.offered .initialise more)
      { s with
        hostOps := more
        life := .ready
        pin := replayPins s.pin (initEvents Config.initSeq)
        trace := s.trace ++ initEvents Config.initSeq } := by
  rw [hs.1]
  exact .of_admitted hs ((admitInitialize_eq s).trans (if_pos ⟨hl, hfr⟩)) (reaches_initializeProg _ hs.2 rfl)

/-- Settles O27: the run is the entries' frames whatever the latches, and the latches are read off the frames' pin writes,
of which none drives `RST` or `PWR`. -/
theorem initializeOperation : Obligations.InitializeOperation := by
  refine ⟨decodeOfEncode .initialise, fun s hs hl hfr => ?_, fun s hs h => ?_, fun draw s more hs hl hfr hpins => ?_,
    fun draw s more hs hl hfr => reaches_initialise more hs hl hfr, fun ps => ?_⟩
  · exact exec_of_admission_none hs ((admitInitialize_eq s).trans (if_pos ⟨hl, hfr⟩))
  · exact exec_of_admission_some hs ((admitInitialize_eq s).trans (if_neg h))
  · have hrun := reaches_initialise (draw := draw) more hs hl hfr
    rwa [replayPins_initEvents_of_bothInactive hpins] at hrun
  · have huntargeted : ∀ p, (∀ e ∈ Config.initSeq, p ∉ targetPins e.target) →
        pinLatch (replayPins ps (initEvents Config.initSeq)) p = pinLatch ps p := fun p hp =>
      (pinLatch_replayPins_initEvents ps _ p).trans (if_neg fun ⟨e, he, hmem⟩ => hp e he hmem)
    refine ⟨huntargeted .rst fun e _ => ?_, huntargeted .pwr fun e _ => ?_, fun e he p hp => ?_, huntargeted⟩
    · cases e.target <;> decide
    · cases e.target <;> decide
    · exact (pinLatch_replayPins_initEvents ps _ p).trans (if_pos ⟨e, he, hp⟩)

end Sys2Proof.Machine
end

section
/-! PROOFS. `SLEEP`, `POWER_ON` and `POWER_OFF`, the last two with and without the power pin (R147 to R149). -/

namespace Sys2Proof.Machine

variable {draw : Nat → Level}

/-- Settles O29: the word by decoding its encoding, the admission by its row, the run by issue and the sleep program. -/
theorem sleepOperation : Obligations.SleepOperation := by
  refine ⟨decodeOfEncode .sleep, fun s hs hl hfr => ?_, fun s hs hl => ?_, fun draw s more hs hl hfr => ?_⟩
  · exact exec_of_admission_none hs ((admitSleep_eq s).trans (if_pos ⟨hl, hfr⟩))
  · exact exec_of_admission_some hs ((admitSleep_eq s).trans (if_neg fun h => hl h.1))
  · rw [hs.1]
    exact .of_admitted hs ((admitSleep_eq s).trans (if_pos ⟨hl, hfr⟩))
      (reaches_sleepProg _ [] hs.2 (List.append_nil _).symm)

theorem reaches_powerOnProg (s : State) (hf : s.fault = none) (hp : s.prog = powerOnProg) :
    Reaches draw s
      (if Config.hasPowerPin = true then
        { s with
          prog := []
          life := .uninitialized
          pin := { s.pin with pwr := some .high }
          trace := s.trace ++ [.setPin .pwr .high, .delay Config.tPwrMs] }
       else { s with prog := [], life := .uninitialized }) := by
  rw [powerOnProg] at hp
  by_cases hpin : Config.hasPowerPin = true
  case pos =>
    rw [if_pos hpin] at hp ⊢
    refine (reaches_setPin s _ hf _ _ hp).trans ?_
    refine (reaches_delay _ _ (by exact hf) _ rfl).trans ?_
    refine (reaches_setLife _ [] (by exact hf) _ rfl).trans ?_
    simpa [drivePins] using Reaches.refl _
  case neg =>
    rw [if_neg hpin] at hp ⊢
    exact reaches_setLife s [] hf _ hp

/-- Settles O30: the row admits two lifecycle states, and the pin decides the program and its run alike. -/
theorem powerOnOperation : Obligations.PowerOnOperation := by
  refine ⟨Config.hundred_le_tPwrMs, decodeOfEncode .powerOn, fun s hs hl hfr => ?_, fun s hs hl1 hl2 => ?_,
    fun draw s more hs hl hfr => ?_⟩
  · exact exec_of_admission_none hs ((admitPowerOn_eq s).trans (if_pos ⟨hl, hfr⟩))
  · exact exec_of_admission_some hs ((admitPowerOn_eq s).trans (if_neg fun h => h.1.elim hl1 hl2))
  · rw [hs.1]
    exact .of_admitted hs ((admitPowerOn_eq s).trans (if_pos ⟨hl, hfr⟩)) (reaches_powerOnProg _ hs.2 rfl)

theorem reaches_powerOffProg (s : State) (hf : s.fault = none) (hp : s.prog = powerOffProg) :
    Reaches draw s
      { s with
        prog := []
        life := if Config.hasPowerPin = true then .poweredOff else .sleeping
        pin :=
          { s.pin with
            csM := some Config.csInactive
            csS := some Config.csInactive
            pwr := if Config.hasPowerPin = true then some .low else s.pin.pwr }
        trace := s.trace ++ sleepEvents ++ if Config.hasPowerPin = true then [.setPin .pwr .low] else [] } := by
  refine (reaches_sleepProg s _ hf hp).trans ?_
  split
  case isTrue =>
    refine (reaches_setPin _ _ (by exact hf) _ _ rfl).trans ?_
    exact reaches_setLife _ [] (by exact hf) _ rfl
  case isFalse => simpa using Reaches.refl _

/-- Settles O31: the sleep program runs first, then, with the pin, the two micro-ops that cut the power. -/
theorem powerOffOperation : Obligations.PowerOffOperation := by
  refine ⟨decodeOfEncode .powerOff, fun s hs hl hfr => ?_, fun s hs hl1 hl2 => ?_, fun draw s more hs hl hfr => ?_⟩
  · exact exec_of_admission_none hs ((admitPowerOff_eq s).trans (if_pos ⟨hl, hfr⟩))
  · exact exec_of_admission_some hs ((admitPowerOff_eq s).trans (if_neg fun h => h.1.elim hl1 hl2))
  · rw [hs.1]
    exact .of_admitted hs ((admitPowerOff_eq s).trans (if_pos ⟨hl, hfr⟩)) (reaches_powerOffProg _ hs.2 rfl)

end Sys2Proof.Machine
end

section
/-! PROOFS. What the operations other than `WRITE_LINE` and `END_FRAME` do on an open frame (R140, R230, R233). -/

namespace Sys2Proof.Machine

/-- The four operations that `Ready` and `Streaming` admit share one row: on an open frame in `Streaming` its fault is the
frame column's. -/
theorem admitRefreshNow_of_openFrame {s : State} (hfr : s.frame ≠ none) :
    ∃ f, admitRefreshNow s = some f ∧ (s.life = .streaming → f = .frameOpen) :=
  ⟨_, (admitRefreshNow_eq s).trans (if_neg fun h => hfr h.2), fun hl => by simp [hl]⟩

/-- Settles O32: each row that wants no frame open gives a fault, and in `Streaming` the columns before the frame column
decide which. -/
theorem openFrameAdmitsOnlyLinesAndEnd : Obligations.OpenFrameAdmitsOnlyLinesAndEnd := by
  intro i s hs hfr hline hend
  suffices h : ∃ f, admission i s = some f ∧ (s.life = .streaming → f = _) by
    obtain ⟨f, ha, hcode⟩ := h
    exact ⟨f, exec_of_admission_some hs ha, hcode⟩
  cases i with
  | writeLine p bs => exact absurd rfl (hline p bs)
  | endFrame p => exact absurd rfl (hend p)
  | reset => exact ⟨_, (admitReset_eq s).trans (if_neg fun h => hfr h.2.2), fun hl => by simp [hl]⟩
  | initialise => exact ⟨_, (admitInitialize_eq s).trans (if_neg fun h => hfr h.2), fun hl => by simp [hl]⟩
  | sleep => exact ⟨_, (admitSleep_eq s).trans (if_neg fun h => hfr h.2), fun _ => by simp⟩
  | powerOn => exact ⟨_, (admitPowerOn_eq s).trans (if_neg fun h => hfr h.2), fun _ => by simp⟩
  | powerOff => exact ⟨_, (admitPowerOff_eq s).trans (if_neg fun h => hfr h.2), fun _ => by simp⟩
  | clear c | beginFrame p | refreshNow | streamImage img =>
    obtain ⟨f, ha, hcode⟩ := admitRefreshNow_of_openFrame hfr
    exact ⟨f, ha, fun hl => by simp [hcode hl]⟩

end Sys2Proof.Machine
end

section
/-! PROOFS. Colour codes, the nibbles of a packed pair and the bytes of a half-row, as far as the framer's statements need them
(R190 to R193, R195). -/

namespace Sys2Proof.Machine

/-! ### Colour codes (R190, R192) -/

/-- A colour's place in the source's list is its index. -/
theorem allColors_at_index (c : PixelColor) : allColors[c.index.val]? = some c := by
  cases c <;> rfl

theorem index_injective : Function.Injective PixelColor.index := fun c d h =>
  Option.some.inj (by rw [← allColors_at_index c, h, allColors_at_index d])

theorem mem_allColors (c : PixelColor) : c ∈ allColors := List.mem_of_getElem? (allColors_at_index c)

theorem toNat_colorCode (c : PixelColor) : (colorCode c).toNat = (Config.colorPerm c.index).val := by
  have hlt := (Config.colorPerm c.index).isLt
  rw [colorCode, BitVec.toNat_ofNat]
  omega

theorem toNat_colorCode_le (c : PixelColor) : (colorCode c).toNat ≤ 5 := by
  rw [toNat_colorCode]
  exact Nat.le_of_lt_succ (Config.colorPerm c.index).isLt

theorem colorCode_injective : Function.Injective colorCode := fun c d h =>
  index_injective <| Config.colorPerm.injective <| Fin.ext <| by
    rw [← toNat_colorCode, h, toNat_colorCode]

@[simp] theorem colorOfCode_colorCode (c : PixelColor) : colorOfCode (colorCode c) = some c := by
  cases hd : colorOfCode (colorCode c) with
  | none => simpa using List.find?_eq_none.1 hd c (mem_allColors c)
  | some d => exact congrArg some (colorCode_injective (by simpa using List.find?_some hd))

/-! ### The nibbles of a byte (R191, R192, R195) -/

theorem toNat_hiNibble (b : Byte) : (hiNibble b).toNat = b.toNat / 16 := by
  have hlt := b.isLt
  rw [hiNibble, BitVec.extractLsb'_toNat, Nat.shiftRight_eq_div_pow]
  omega

theorem toNat_loNibble (b : Byte) : (loNibble b).toNat = b.toNat % 16 := by
  rw [loNibble, BitVec.extractLsb'_toNat, Nat.shiftRight_zero]

theorem packCodes_eq_append : ∀ h l : BitVec 4, packCodes h l = h ++ l := by decide

@[simp] theorem hiNibble_pack (e o : PixelColor) : hiNibble (pack e o) = colorCode e := by
  rw [pack, packCodes_eq_append]
  exact BitVec.extractLsb'_append_eq_left

@[simp] theorem loNibble_pack (e o : PixelColor) : loNibble (pack e o) = colorCode o := by
  rw [pack, packCodes_eq_append]
  exact BitVec.extractLsb'_append_eq_right

theorem validByte_pack (e o : PixelColor) : validByte (pack e o) = true := by
  simp [validByte, toNat_colorCode_le]

theorem validByte_eq_false_iff (b : Byte) : validByte b = false ↔ 6 ≤ b.toNat / 16 ∨ 6 ≤ b.toNat % 16 := by
  simp only [validByte, toNat_hiNibble, toNat_loNibble, Bool.and_eq_false_iff, decide_eq_false_iff_not, Nat.not_le]
  rfl

/-! ### The bytes of a half-row (R193) -/

@[simp] theorem length_packHalf (h : Fin 600 → PixelColor) : (packHalf h).length = 300 := List.length_ofFn

theorem getElem?_packHalf (h : Fin 600 → PixelColor) {k : Nat} (hk : k < 300) :
    (packHalf h)[k]? = some (pack (h ⟨2 * k, by omega⟩) (h ⟨2 * k + 1, by omega⟩)) := by
  rw [packHalf, List.getElem?_ofFn, dif_pos (by exact hk)]

theorem validByte_of_mem_packHalf {h : Fin 600 → PixelColor} {b : Byte} (hb : b ∈ packHalf h) : validByte b = true := by
  obtain ⟨k, rfl⟩ := List.mem_ofFn.1 hb
  exact validByte_pack _ _

end Sys2Proof.Machine
end

section
/-! PROOFS. The data bytes of a half's frame carry the half's pixels (R62, R177, R213). -/

namespace Sys2Proof.Machine

/-! ### Lines of one length, one after the other -/

theorem length_flatten_of_length_eq {α : Type} {n : Nat} {rows : List (List α)} (h : ∀ r ∈ rows, r.length = n) :
    rows.flatten.length = n * rows.length := by
  rw [List.length_flatten, List.map_eq_replicate_iff.2 h, List.sum_replicate_nat, Nat.mul_comm]

/-- Element `j` of row `y` stands at place `n * y + j`. -/
theorem getElem?_flatten_of_length_eq {α : Type} {n : Nat} {rows : List (List α)} (h : ∀ r ∈ rows, r.length = n) (y : Nat)
    {j : Nat} (hj : j < n) : rows.flatten[n * y + j]? = rows[y]?.bind (·[j]?) := by
  induction rows generalizing y with
  | nil => simp
  | cons r rows ih =>
    obtain ⟨hr, hrows⟩ := List.forall_mem_cons.1 h
    rw [List.flatten_cons]
    cases y with
    | zero => rw [List.getElem?_append_left (by omega)]; simp
    | succ y =>
      have hplace : n * (y + 1) + j - r.length = n * y + j := by rw [hr, Nat.mul_succ]; omega
      rw [List.getElem?_append_right (by rw [hr, Nat.mul_succ]; omega), hplace, ih hrows]
      rfl

/-! ### The lines of an image -/

@[simp] theorem length_imageLines (img : Image) (p : Panel) : (imageLines img p).length = 1600 := List.length_ofFn

theorem getElem?_imageLines (img : Image) (p : Panel) (y : Fin 1600) :
    (imageLines img p)[y.val]? = some (packHalf (split (imageRow img y) p)) := by
  rw [imageLines, List.getElem?_ofFn, dif_pos (by exact y.isLt)]

theorem eq_packHalf_of_mem_imageLines {img : Image} {p : Panel} {bs : List Byte} (h : bs ∈ imageLines img p) :
    ∃ y, bs = packHalf (split (imageRow img y) p) := by
  obtain ⟨y, rfl⟩ := List.mem_ofFn.1 h
  exact ⟨⟨y.val, y.isLt⟩, rfl⟩

theorem length_of_mem_imageLines {img : Image} {p : Panel} {bs : List Byte} (h : bs ∈ imageLines img p) :
    bs.length = Config.lineBytes := by
  obtain ⟨y, rfl⟩ := eq_packHalf_of_mem_imageLines h
  exact length_packHalf _

theorem validByte_of_mem_imageLines {img : Image} {p : Panel} {bs : List Byte} (h : bs ∈ imageLines img p) {b : Byte}
    (hb : b ∈ bs) : validByte b = true := by
  obtain ⟨y, rfl⟩ := eq_packHalf_of_mem_imageLines h
  exact validByte_of_mem_packHalf hb

/-- The nibble of a half-row's byte that R195 gives local pixel `x` decodes to that pixel's colour. -/
theorem framePixel_of_getElem? {bytes : List Byte} {y : Nat} (h : Fin 600 → PixelColor) (x : Fin 600)
    (hb : bytes[Config.lineBytes * y + x.val / 2]? = (packHalf h)[x.val / 2]?) :
    framePixel bytes y x.val = some (h x) := by
  rw [getElem?_packHalf h (by omega)] at hb
  simp only [framePixel, hb]
  split
  case isTrue hx =>
    rw [hiNibble_pack, colorOfCode_colorCode]
    congr 2
    exact Fin.ext (by dsimp only; omega)
  case isFalse hx =>
    rw [loNibble_pack, colorOfCode_colorCode]
    congr 2
    exact Fin.ext (by dsimp only; omega)

/-- Settles O49: 1600 lines of 300 bytes stand one after the other, so byte `300 * y + x / 2` is byte `x / 2` of row `y`. -/
theorem frameCarriesImage : Obligations.FrameCarriesImage := by
  intro img p
  have hlen : ∀ bs ∈ imageLines img p, bs.length = Config.lineBytes := fun bs => length_of_mem_imageLines
  refine ⟨?_, fun y x => framePixel_of_getElem? _ x ?_⟩
  · rw [length_flatten_of_length_eq hlen, length_imageLines]
    rfl
  · have hx : x.val / 2 < Config.lineBytes := Nat.div_lt_of_lt_mul x.isLt
    rw [getElem?_flatten_of_length_eq hlen y.val hx, getElem?_imageLines, Option.bind_some]

end Sys2Proof.Machine
end

section
/-! PROOFS. The framer's operations: what their admission says in one formula, their faults in order, and their runs (R140, R170
to R173, R176). -/

namespace Sys2Proof

theorem panelOfArg_of_two_le {a : BitVec 4} (h : 2 ≤ a.toNat) : panelOfArg a = .error .badPanel := by
  unfold panelOfArg
  split
  case h_3 => rfl
  all_goals omega

/-- An operation on a panel refuses an `ARG` from 2 on at decode (R83). -/
theorem decode_badPanel {c : OpCode} {arg : BitVec 4} {o : Operand} {g : Panel → Instr} (h : 2 ≤ arg.toNat)
    (hops : decodeOperands c arg o = (panelOfArg arg).map g) : decode (opWord c arg) o = .error .badPanel := by
  rw [decode_opWord, hops, panelOfArg_of_two_le h]
  rfl

end Sys2Proof

namespace Sys2Proof.Machine

/-! ### BEGIN_FRAME (R170) -/

theorem admitBeginFrame_eq (s : State) :
    admitBeginFrame s =
      if (s.life = .ready ∨ s.life = .streaming) ∧ s.frame = none then none
      else some (if s.life ≠ .ready ∧ s.life ≠ .streaming then .illegalState else .frameOpen) := by
  simp [admitBeginFrame, admitRow_closed]

/-- Settles O34: the words by decoding their encodings, the admission by its row, the run by issue and the opening of the frame. -/
theorem beginFrameOperation : Obligations.BeginFrameOperation := by
  refine ⟨decodeOfEncode (.beginFrame .master), decodeOfEncode (.beginFrame .slave),
    fun arg harg => decode_badPanel (c := .beginFrame) harg rfl, fun s hs hl hfr => ?_, fun s p hs h => ?_,
    fun draw s p more hs hl hfr => ?_⟩
  · have ha : admitBeginFrame s = none := (admitBeginFrame_eq s).trans (if_pos ⟨hl, hfr⟩)
    exact ⟨exec_of_admission_none (i := .beginFrame .master) hs ha, exec_of_admission_none (i := .beginFrame .slave) hs ha⟩
  · exact exec_of_admission_some (i := .beginFrame p) hs ((admitBeginFrame_eq s).trans (if_neg h))
  · rw [hs.1]
    refine .of_admitted hs ((admitBeginFrame_eq s).trans (if_pos ⟨hl, hfr⟩)) ?_
    cases p <;> exact reaches_beginProg _ _ [] hs.2 (List.append_nil _).symm

/-! ### Rows that need the panel's frame open (R140, R173, R176) -/

/-- The row of `WRITE_LINE` and `END_FRAME`: the lifecycle column, then the frame column with its two faults. -/
theorem admitRow_openFor (p : Panel) (s : State) :
    admitRow { needsPower := false, lives := [.streaming], frame := .openFor p } s =
      if s.life ≠ .streaming then some .illegalState
      else if s.frame = none then some .frameNotOpen
      else if s.frame ≠ some p then some .panelMismatch
      else none := by
  by_cases hl : s.life = .streaming
  case neg => simp [admitRow, hl]
  cases hfr : s.frame with
  | none => simp [admitRow, frameFault, hl, hfr]
  | some q => by_cases hq : q = p <;> simp [admitRow, frameFault, hl, hfr, hq]

theorem ite_some_or {c : Prop} [Decidable c] (f : FaultCode) (a b : Option FaultCode) :
    (if c then some f else a).or b = if c then some f else a.or b :=
  apply_ite (Option.or · b) c (some f) a

/-! ### END_FRAME (R176) -/

theorem admitEndFrame_eq (p : Panel) (s : State) :
    admitEndFrame p s =
      if s.life = .streaming ∧ s.frame = some p ∧ s.lines = 1600 then none
      else some
        (if s.life ≠ .streaming then .illegalState
         else if s.frame = none then .frameNotOpen
         else if s.frame ≠ some p then .panelMismatch
         else .incompleteFrame) := by
  rw [admitEndFrame, admitRow_openFor, ite_some_or, ite_some_or, ite_some_or, Option.none_or]
  by_cases hl : s.life = .streaming
  case neg => simp [hl]
  by_cases hfr : s.frame = some p
  case neg => simp [hl, hfr, apply_ite some]
  by_cases hn : s.lines = 1600 <;> simp [hl, hfr, hn, faultIf, Config.panelH]

/-- Settles O38: the words by decoding their encodings, the admission by its row and the line count, the run by issue and the
closing of the frame. -/
theorem endFrameOperation : Obligations.EndFrameOperation := by
  refine ⟨decodeOfEncode (.endFrame .master), decodeOfEncode (.endFrame .slave),
    fun arg harg => decode_badPanel (c := .endFrame) harg rfl, fun s p hs hl hfr hn => ?_, fun s p hs h => ?_,
    fun draw s p more hs hl hfr hn => ?_⟩
  · exact exec_of_admission_none (i := .endFrame p) hs ((admitEndFrame_eq p s).trans (if_pos ⟨hl, hfr, hn⟩))
  · exact exec_of_admission_some (i := .endFrame p) hs ((admitEndFrame_eq p s).trans (if_neg h))
  · rw [hs.1]
    refine .of_admitted hs ((admitEndFrame_eq p s).trans (if_pos ⟨hl, hfr, hn⟩)) ?_
    cases p <;> exact reaches_endProg _ { s with hostOps := more, prog := endProg _ } [] hs.2 rfl

/-! ### WRITE_LINE (R172, R173) -/

/-- The further checks of a line, in their order. -/
theorem lineFault_eq (bs : List Byte) (lines : Nat) :
    lineFault bs lines =
      if bs.length ≠ 300 then some .badLineLength
      else if lines = 1600 then some .frameOverflow
      else if ∃ b ∈ bs, 6 ≤ b.toNat / 16 ∨ 6 ≤ b.toNat % 16 then some .badColorCode
      else none := by
  have hcodes : (!bs.all validByte) = true ↔ ∃ b ∈ bs, 6 ≤ b.toNat / 16 ∨ 6 ≤ b.toNat % 16 := by
    simp [← validByte_eq_false_iff]
  simp only [lineFault, faultIf, ite_some_or, Option.none_or, bne_iff_ne, beq_iff_eq, hcodes]
  rfl

theorem admitWriteLine_eq_or {bs : List Byte} (hbs : bs ≠ []) (p : Panel) (s : State) :
    admitWriteLine p bs s =
      (admitRow { needsPower := false, lives := [.streaming], frame := .openFor p } s).or (lineFault bs s.lines) :=
  if_neg (by simpa using hbs)

/-- A non-empty line is admitted in its panel's frame, not yet full, with 300 valid bytes. -/
theorem admitWriteLine_eq_none {bs : List Byte} (hbs : bs ≠ []) (p : Panel) (s : State) :
    admitWriteLine p bs s = none ↔
      s.life = .streaming ∧ s.frame = some p ∧ bs.length = 300 ∧ s.lines ≠ 1600 ∧ bs.all validByte = true := by
  rw [admitWriteLine_eq_or hbs, Option.or_eq_none_iff, admitRow_eq_none, frameFault_openFor_eq_none, lineFault_eq_none]
  simp [Config.lineBytes, Config.panelH, and_assoc]

/-- A non-empty line's faults in their order: the row's, then the line's own. -/
theorem admitWriteLine_eq {bs : List Byte} (hbs : bs ≠ []) (p : Panel) (s : State) :
    admitWriteLine p bs s =
      if s.life ≠ .streaming then some .illegalState
      else if s.frame = none then some .frameNotOpen
      else if s.frame ≠ some p then some .panelMismatch
      else if bs.length ≠ 300 then some .badLineLength
      else if s.lines = 1600 then some .frameOverflow
      else if ∃ b ∈ bs, 6 ≤ b.toNat / 16 ∨ 6 ≤ b.toNat % 16 then some .badColorCode
      else none := by
  rw [admitWriteLine_eq_or hbs, admitRow_openFor, ite_some_or, ite_some_or, ite_some_or, Option.none_or, lineFault_eq]

theorem writeLineProg_of_ne_nil {bs : List Byte} (hbs : bs ≠ []) : writeLineProg bs = lineProg bs :=
  if_neg (by simpa using hbs)

/-- On an idle block a check that fails sets the fault register only, and one that passes leaves the outcome to the rest. -/
theorem issueState_ite {s : State} (hs : s.Idle) (c : Prop) [Decidable c] (f : FaultCode) (a : Option FaultCode)
    (q : List MicroOp) :
    issueState (if c then some f else a) q s = if c then { s with fault := some f } else issueState a q s := by
  split
  · rw [issueState_some, raise, ← hs.1]
  · rfl

theorem exec_writeLine {s : State} {bs : List Byte} (hs : s.Idle) (hbs : bs ≠ []) (p : Panel) :
    exec (.writeLine p bs) s = .next (issueState (admitWriteLine p bs s) (lineProg bs) s) := by
  rw [exec_eq_issue, issue_idle hs.1 hs.2, expand, writeLineProg_of_ne_nil hbs]
  rfl

/-- Settles O36: the words go through the one panel check, `exec` takes the admission's checks one by one, and an admitted line
runs its pixel bytes on the frame's own select. -/
theorem writeLineOperation : Obligations.WriteLineOperation := by
  refine ⟨fun arg bs => ⟨?_, decodeOfEncode (.writeLine .master bs), decodeOfEncode (.writeLine .slave bs),
    fun harg => decode_badPanel (c := .writeLine) harg rfl⟩, fun s p bs hs hbs => ?_,
    fun draw s p bs more hs hl hfr hlen hn hval hp hother => ?_⟩
  · exact decode_opWord .writeLine arg .absent
  · rw [exec_writeLine hs hbs, admitWriteLine_eq hbs]
    simp only [issueState_ite hs]
    rfl
  · have hbs : bs ≠ [] := List.ne_nil_of_length_pos (by omega)
    have hallowed : pixelAllowed s.frame s.pin = true := by
      rw [hfr, pixelAllowed_some_iff]
      exact ⟨hp, hother⟩
    rw [hs.1]
    refine .of_admitted hs ((admitWriteLine_eq_none hbs p s).2 ⟨hl, hfr, hlen, hn, hval⟩) ?_
    rw [expand, writeLineProg_of_ne_nil hbs]
    exact reaches_lineProg bs { s with hostOps := more, prog := lineProg bs } [] hs.2 hallowed (List.append_nil _).symm

/-- Settles O35: an empty line has no check and no micro-op, so its issue leaves the empty micro-program as it is. -/
theorem emptyLineIsNoOp : Obligations.EmptyLineIsNoOp := by
  refine ⟨fun s p hs => ?_, fun arg harg => decode_badPanel (c := .writeLine) harg rfl⟩
  rw [exec_of_admission_none hs rfl]
  exact congrArg (fun q => Host.Outcome.next { s with prog := q }) hs.1.symm

end Sys2Proof.Machine
end

section
/-! PROOFS. What is left of a micro-program sends only valid pixel bytes and only commands of the closed set (R90, R92, R174). -/

namespace Sys2Proof.Machine

/-- The micro-op sends no byte, a payload byte, a valid pixel byte or a command of the closed set. -/
def MicroOp.IsLegal : MicroOp → Prop
  | .pixData b => validByte b = true
  | .cmd b => b ∈ busCommands
  | .param _ | .setPin _ _ | .delay _ | .setLife _ | .setFrame _ | .incLine | .waitBusy => True

/-- Every micro-op of the micro-program is legal. -/
def LegalProg (prog : List MicroOp) : Prop := ∀ m ∈ prog, m.IsLegal

theorem sendsOnlyLegalBytes_iff (s : State) : s.SendsOnlyLegalBytes ↔ LegalProg s.prog := by
  refine ⟨fun ⟨hpix, hcmd⟩ m hm => ?_, fun h => ⟨fun b => h (.pixData b), fun b => h (.cmd b)⟩⟩
  cases m with
  | pixData b => exact hpix b hm
  | cmd b => exact hcmd b hm
  | _ => trivial

/-! ### Micro-programs piece by piece -/

@[simp] theorem legalProg_nil : LegalProg [] := nofun

@[simp] theorem legalProg_cons (m : MicroOp) (prog : List MicroOp) :
    LegalProg (m :: prog) ↔ m.IsLegal ∧ LegalProg prog :=
  List.forall_mem_cons

@[simp] theorem legalProg_append (p q : List MicroOp) : LegalProg (p ++ q) ↔ LegalProg p ∧ LegalProg q :=
  List.forall_mem_append

theorem legalProg_flatten {progs : List (List MicroOp)} (h : ∀ p ∈ progs, LegalProg p) : LegalProg progs.flatten :=
  List.forall_mem_flatten.2 h

@[simp] theorem legalProg_selectProg (t : Target) : LegalProg (selectProg t) :=
  List.forall_mem_map.2 fun _ _ => trivial

@[simp] theorem legalProg_deselectProg (t : Target) : LegalProg (deselectProg t) :=
  List.forall_mem_map.2 fun _ _ => trivial

@[simp] theorem legalProg_params (ps : List Byte) : LegalProg (ps.map .param) :=
  List.forall_mem_map.2 fun _ _ => trivial

/-- The one command of a command frame decides. -/
theorem legalProg_cmdFrame {c : Byte} (hc : c ∈ busCommands) (t : Target) (ps : List Byte) :
    LegalProg (cmdFrame t c ps) := by
  simp [cmdFrame, MicroOp.IsLegal, hc]

theorem cmd_mem_busCommands {e : Config.InitEntry} (he : e ∈ Config.initSeq) : e.cmd ∈ busCommands :=
  List.mem_append_right _ (List.mem_map_of_mem he)

theorem legalProg_lineProg {bs : List Byte} (h : ∀ b ∈ bs, validByte b = true) : LegalProg (lineProg bs) := by
  have hpixels : LegalProg (bs.map .pixData) := List.forall_mem_map.2 h
  simp [lineProg, hpixels, MicroOp.IsLegal]

theorem legalProg_beginProg (p : Panel) : LegalProg (beginProg p) := by
  cases p <;> simp [beginProg, MicroOp.IsLegal, busCommands]

theorem legalProg_endProg (p : Panel) : LegalProg (endProg p) := by
  simp [endProg, MicroOp.IsLegal]

/-- The frame of one half, out of its rows. -/
theorem legalProg_half (p : Panel) {rows : List (List MicroOp)} (h : ∀ r ∈ rows, LegalProg r) :
    LegalProg (beginProg p ++ rows.flatten ++ endProg p) := by
  simp [legalProg_beginProg, legalProg_endProg, legalProg_flatten h]

theorem legalProg_clearRow (c : PixelColor) : LegalProg (clearRow c) := by
  rw [clearRow_eq, legalProg_append]
  refine ⟨legalProg_lineProg fun b hb => ?_, by simp [MicroOp.IsLegal]⟩
  rw [List.eq_of_mem_replicate hb]
  exact validByte_pack c c

theorem legalProg_refreshProg : LegalProg refreshProg := by
  have hpon : Config.cmdPon ∈ busCommands := by simp [busCommands]
  have hdrf : Config.cmdDrf ∈ busCommands := by simp [busCommands]
  have hpof : Config.cmdPof ∈ busCommands := by simp [busCommands]
  simp [refreshProg, MicroOp.IsLegal, legalProg_cmdFrame, hpon, hdrf, hpof]

theorem legalProg_sleepProg : LegalProg sleepProg := by
  have hdslp : Config.cmdDslp ∈ busCommands := by simp [busCommands]
  simp [sleepProg, MicroOp.IsLegal, legalProg_cmdFrame hdslp]

/-! ### Every operation -/

theorem legalProg_resetProg : LegalProg resetProg := by
  simp [resetProg, resetPulse, MicroOp.IsLegal]

theorem legalProg_initializeProg : LegalProg initializeProg := by
  have hframes : LegalProg (Config.initSeq.flatMap initFrame) :=
    legalProg_flatten (List.forall_mem_map.2 fun e he => legalProg_cmdFrame (cmd_mem_busCommands he) e.target e.payload)
  simp [initializeProg, hframes, MicroOp.IsLegal]

theorem legalProg_clearHalf (c : PixelColor) (p : Panel) : LegalProg (clearHalf c p) :=
  legalProg_half p fun r hr => by rw [List.eq_of_mem_replicate hr]; exact legalProg_clearRow c

theorem legalProg_streamHalf (img : Image) (p : Panel) : LegalProg (streamHalf img p) :=
  legalProg_half p (List.forall_mem_map.2 fun _ hbs => legalProg_lineProg fun _ => validByte_of_mem_imageLines hbs)

/-- The admission of a non-empty line has checked its bytes (R174). -/
theorem legalProg_writeLineProg {p : Panel} {bs : List Byte} {s : State} (ha : admitWriteLine p bs s = none) :
    LegalProg (writeLineProg bs) := by
  by_cases hbs : bs = []
  · subst hbs
    exact legalProg_nil
  · obtain ⟨-, -, -, -, hval⟩ := (admitWriteLine_eq_none hbs p s).1 ha
    rw [writeLineProg_of_ne_nil hbs]
    exact legalProg_lineProg (List.all_eq_true.1 hval)

theorem legalProg_powerOnProg : LegalProg powerOnProg := by
  unfold powerOnProg
  split <;> simp [MicroOp.IsLegal]

theorem legalProg_powerOffProg : LegalProg powerOffProg := by
  unfold powerOffProg
  split <;> simp [legalProg_sleepProg, MicroOp.IsLegal]

/-- An admitted operation's micro-program is legal. -/
theorem legalProg_expand {i : Instr} {s : State} (ha : admission i s = none) : LegalProg (expand i) := by
  cases i with
  | reset => exact legalProg_resetProg
  | initialise => exact legalProg_initializeProg
  | clear c => simp [expand, clearProg, legalProg_clearHalf, legalProg_refreshProg]
  | beginFrame p => exact legalProg_beginProg p
  | writeLine p bs => exact legalProg_writeLineProg ha
  | endFrame p => exact legalProg_endProg p
  | refreshNow => exact legalProg_refreshProg
  | sleep => exact legalProg_sleepProg
  | powerOn => exact legalProg_powerOnProg
  | powerOff => exact legalProg_powerOffProg
  | streamImage img => simp [expand, streamProg, legalProg_streamHalf, legalProg_refreshProg]

/-! ### Every step -/

/-- A micro step leaves nothing but what stood in the micro-program. -/
theorem legalProg_microStep {m : MicroOp} {rest : List MicroOp} (h : LegalProg (m :: rest)) (l : Level) (s : State) :
    LegalProg (microStep l m rest s).prog := by
  obtain ⟨f, -, hraise⟩ | ⟨-, hprog | ⟨rfl, -, hprog⟩, -⟩ := microStep_cases l m rest s
  · rw [hraise]
    exact legalProg_nil
  · rw [hprog]
    exact ((legalProg_cons m rest).1 h).2
  · rwa [hprog]

/-- Settles O54, for each way a step answers: a micro step adds no micro-op, a fault empties the micro-program, and an admitted
operation's is legal. -/
theorem stepKeepsLegalBytes : Obligations.StepKeepsLegalBytes := by
  refine ⟨(sendsOnlyLegalBytes_iff _).2 legalProg_nil, fun s t hs hstep => ?_⟩
  rw [sendsOnlyLegalBytes_iff] at hs ⊢
  obtain ⟨-, ⟨m, rest, hp, rfl⟩ | ⟨-, -, rfl⟩ | ⟨-, op, more, -, hc⟩⟩ := stepWith_next hstep
  · exact legalProg_microStep (hp ▸ hs) _ s
  · exact hs
  · obtain ⟨f, -, rfl⟩ | ⟨i, -, ⟨f, -, rfl⟩ | ⟨ha, rfl⟩⟩ := hc
    · exact legalProg_nil
    · exact legalProg_nil
    · exact legalProg_expand ha

end Sys2Proof.Machine
end

section
/-! PROOFS. Packing and unpacking: the codes of the colours, the value of a packed pair, and unpacking as packing's inverse
(R190 to R194). -/

namespace Sys2Proof.Machine

/-! ### The codes that are some colour's (R190) -/

theorem index_surjective : Function.Surjective PixelColor.index := fun i =>
  ⟨allColors[i.val]'i.isLt, by revert i; decide⟩

theorem exists_colorCode_eq_iff (n : BitVec 4) : (∃ c, colorCode c = n) ↔ n.toNat ≤ 5 := by
  constructor
  · rintro ⟨c, rfl⟩
    exact toNat_colorCode_le c
  · intro hn
    obtain ⟨c, hc⟩ := index_surjective (Config.colorPerm.symm ⟨n.toNat, Nat.lt_succ_of_le hn⟩)
    refine ⟨c, BitVec.eq_of_toNat_eq ?_⟩
    rw [toNat_colorCode, hc, Equiv.apply_symm_apply]

theorem colorOfCode_eq_some_iff {n : BitVec 4} {c : PixelColor} : colorOfCode n = some c ↔ colorCode c = n := by
  constructor
  · intro h
    simpa using List.find?_some h
  · rintro rfl
    exact colorOfCode_colorCode c

/-- Settles O43: the code is a permutation of the six values after the index, which takes each of them. -/
theorem colourCodesAreTheSixValues : Obligations.ColourCodesAreTheSixValues :=
  ⟨colorCode_injective, toNat_colorCode_le, fun n => (exists_colorCode_eq_iff n).2⟩

/-! ### The byte of a pair (R191, R194) -/

theorem toNat_pack (e o : PixelColor) : (pack e o).toNat = (colorCode e).toNat * 16 + (colorCode o).toNat := by
  have hhi : (pack e o).toNat / 16 = (colorCode e).toNat := by rw [← toNat_hiNibble, hiNibble_pack]
  have hlo : (pack e o).toNat % 16 = (colorCode o).toNat := by rw [← toNat_loNibble, loNibble_pack]
  omega

/-- Settles O44: the nibbles make up the value, and codes of at most 5 bound it. -/
theorem packTwoColours : Obligations.PackTwoColours := by
  intro e o
  have he := toNat_colorCode_le e
  have ho := toNat_colorCode_le o
  refine ⟨toNat_pack e o, ?_, hiNibble_pack e o, loNibble_pack e o⟩
  rw [toNat_pack]
  omega

/-- Settles O47: the fill byte packs one code twice, and 16 times the code and the code make 17 times the code. -/
theorem fillByte : Obligations.FillByte := by
  intro c
  refine ⟨?_, hiNibble_pack c c, loNibble_pack c c⟩
  rw [fill, toNat_pack]
  omega

/-! ### Unpacking (R192) -/

theorem pack_eq_iff {e o : PixelColor} {b : Byte} :
    pack e o = b ↔ colorCode e = hiNibble b ∧ colorCode o = loNibble b := by
  constructor
  · rintro rfl
    exact ⟨(hiNibble_pack e o).symm, (loNibble_pack e o).symm⟩
  · rintro ⟨he, ho⟩
    apply BitVec.eq_of_toNat_eq
    rw [toNat_pack, he, ho, toNat_hiNibble, toNat_loNibble]
    omega

theorem unpack_eq_some_iff {b : Byte} {e o : PixelColor} : unpack b = some (e, o) ↔ pack e o = b := by
  rw [pack_eq_iff, ← colorOfCode_eq_some_iff, ← colorOfCode_eq_some_iff, unpack]
  cases colorOfCode (hiNibble b) <;> cases colorOfCode (loNibble b) <;> simp

theorem validByte_iff_exists_pack (b : Byte) : validByte b = true ↔ ∃ e o, pack e o = b := by
  simp only [pack_eq_iff, exists_and_left, exists_and_right, exists_colorCode_eq_iff, validByte, Bool.and_eq_true,
    decide_eq_true_eq]

theorem validByte_iff_isSome_unpack (b : Byte) : validByte b = true ↔ (unpack b).isSome = true := by
  simp only [validByte_iff_exists_pack, ← unpack_eq_some_iff, Option.isSome_iff_exists, Prod.exists]

/-- Settles O45: a byte unpacks to a pair exactly where it is the pair packed, and validity asks only for some such pair;
validity names no code, so the count is by evaluation. -/
theorem unpackInvertsPack : Obligations.UnpackInvertsPack :=
  ⟨fun e o => ⟨unpack_eq_some_iff.2 rfl, validByte_pack e o⟩, fun _ _ _ h => (unpack_eq_some_iff.1 h).symm,
    validByte_iff_isSome_unpack, by decide⟩

/-! ### A half-row (R193) -/

/-- Settles O46: the length and the bytes of a packed half-row are its definition's. -/
theorem packHalfRow : Obligations.PackHalfRow := fun h => ⟨length_packHalf h, fun _ => getElem?_packHalf h⟩

end Sys2Proof.Machine
end

section
/-! PROOFS. `CLEAR` and `STREAM_IMAGE` as one micro-program with and without row yields: Master's frame, Slave's frame and
the refresh (R89, R140, R212, R213). -/

namespace Sys2Proof.Machine

variable {draw : Nat → Level}

/-! ### The shared micro-program -/

/-- One row of a half: its line and, for `CLEAR`, the row yield. Its events are `lineEvents`. -/
def rowProg (yields : Bool) (bs : List Byte) : List MicroOp :=
  lineProg bs ++ if yields then [.delay Config.rowYieldMs] else []

/-- The frame of one half. Its events are `pixelFrameEvents`. -/
def halfProg (yields : Bool) (p : Panel) (lines : List (List Byte)) : List MicroOp :=
  beginProg p ++ lines.flatMap (rowProg yields) ++ endProg p

/-- Master's half, Slave's half and the refresh. -/
def compositorProg (yields : Bool) (lines : Panel → List (List Byte)) : List MicroOp :=
  halfProg yields .master (lines .master) ++ halfProg yields .slave (lines .slave) ++ refreshProg

/-- The lines of a half that is all one colour. -/
def uniformLines (c : PixelColor) : List (List Byte) := List.replicate 1600 (List.replicate 300 (pack c c))

theorem rowProg_false : rowProg false = lineProg := funext fun _ => List.append_nil _

theorem clearHalf_eq (c : PixelColor) (p : Panel) : clearHalf c p = halfProg true p (uniformLines c) := by
  rw [halfProg, uniformLines, List.flatMap_replicate, clearHalf, clearRow_eq]
  rfl

theorem streamHalf_eq (img : Image) (p : Panel) : streamHalf img p = halfProg false p (imageLines img p) := by
  rw [streamHalf, halfProg, rowProg_false]

theorem clearProg_eq (c : PixelColor) : clearProg c = compositorProg true fun _ => uniformLines c := by
  rw [clearProg, clearHalf_eq, clearHalf_eq, compositorProg]

theorem streamProg_eq (img : Image) : streamProg img = compositorProg false (imageLines img) := by
  rw [streamProg, streamHalf_eq, streamHalf_eq, compositorProg]

theorem flatMap_panels {α : Type} (f : Panel → List α) : [Panel.master, .slave].flatMap f = f .master ++ f .slave := by
  simp

/-! ### Runs -/

theorem reaches_rowProg (yields : Bool) (bs : List Byte) (s : State) (q : List MicroOp) (hf : s.fault = none)
    (ha : pixelAllowed s.frame s.pin = true) (hp : s.prog = rowProg yields bs ++ q) :
    Reaches draw s { s with prog := q, lines := s.lines + 1, trace := s.trace ++ lineEvents yields bs } := by
  refine (reaches_lineProg bs s _ hf ha (hp.trans (List.append_assoc ..))).trans ?_
  cases yields with
  | false => simpa [lineEvents] using Reaches.refl _
  | true =>
    refine (reaches_delay _ q (by exact hf) _ rfl).trans ?_
    simpa [lineEvents] using Reaches.refl _

/-- The rows of a half, in order, where the frame's chip select alone is asserted. -/
theorem reaches_rows (yields : Bool) (lines : List (List Byte)) (s : State) (q : List MicroOp) (hf : s.fault = none)
    (ha : pixelAllowed s.frame s.pin = true) (hp : s.prog = lines.flatMap (rowProg yields) ++ q) :
    Reaches draw s
      { s with
        prog := q
        lines := s.lines + lines.length
        trace := s.trace ++ lines.flatMap (lineEvents yields) } := by
  induction lines generalizing s with
  | nil =>
    obtain rfl : s.prog = q := hp
    simpa using Reaches.refl s
  | cons bs lines ih =>
    rw [List.flatMap_cons, List.append_assoc] at hp
    refine (reaches_rowProg yields bs s _ hf ha hp).trans ((ih _ (by exact hf) (by exact ha) rfl).trans ?_)
    simpa [Nat.add_assoc, Nat.add_comm 1] using Reaches.refl _

/-- Opening a frame and closing it again leaves inactive chip selects as they were. -/
theorem frameClosePins_frameOpenPins_of_bothInactive {ps : Pins} (h : ps.BothInactive) (p : Panel) :
    frameClosePins p (frameOpenPins p ps) = ps := by
  cases ps
  obtain ⟨rfl, rfl⟩ := h
  cases p <;> rfl

theorem pixelAllowed_of_bothInactive {ps : Pins} (h : ps.BothInactive) (p : Panel) :
    pixelAllowed (some p) (frameOpenPins p ps) = true :=
  pixelAllowed_frameOpenPins p (bothInactive_not_selected h).2

/-- The state a half's frame leaves: its framing emitted (R89), no frame open, the latches as before. -/
def afterHalf (yields : Bool) (p : Panel) (lines : List (List Byte)) (s : State) : State :=
  { s with
    life := .streaming
    frame := none
    lines := 0
    trace := s.trace ++ pixelFrameEvents p yields lines }

/-- The state both halves leave, which is where the refresh starts. -/
def afterHalves (yields : Bool) (lines : Panel → List (List Byte)) (s : State) : State :=
  afterHalf yields .slave (lines .slave) (afterHalf yields .master (lines .master) s)

theorem reaches_halfProg (yields : Bool) (p : Panel) (lines : List (List Byte)) (s : State) (q : List MicroOp)
    (hf : s.fault = none) (hpin : s.pin.BothInactive) (hp : s.prog = halfProg yields p lines ++ q) :
    Reaches draw s { afterHalf yields p lines s with prog := q } := by
  rw [halfProg, List.append_assoc, List.append_assoc] at hp
  refine (reaches_beginProg p s _ hf hp).trans ?_
  refine (reaches_rows yields lines _ _ (by exact hf) (by exact pixelAllowed_of_bothInactive hpin p) rfl).trans ?_
  refine (reaches_endProg p _ q (by exact hf) rfl).trans ?_
  simpa [afterHalf, pixelFrameEvents, frameClosePins_frameOpenPins_of_bothInactive hpin] using Reaches.refl _

theorem reaches_halves (yields : Bool) (lines : Panel → List (List Byte)) (s : State) (hf : s.fault = none)
    (hpin : s.pin.BothInactive) (hp : s.prog = compositorProg yields lines) :
    Reaches draw s { afterHalves yields lines s with prog := refreshProg } := by
  rw [compositorProg, List.append_assoc] at hp
  exact (reaches_halfProg yields .master _ s _ hf hpin hp).trans
    (reaches_halfProg yields .slave _ _ _ (by exact hf) (by exact hpin) rfl)

theorem reaches_compositorProg (yields : Bool) (lines : Panel → List (List Byte)) (s : State) (k1 k2 : Nat)
    (hf : s.fault = none) (hpin : s.pin.BothInactive) (hp : s.prog = compositorProg yields lines)
    (d1 : BusyFor draw s.draws k1) (d2 : BusyFor draw (s.draws + k1 + 1) k2) :
    Reaches draw s
      { s with
        prog := []
        life := .ready
        frame := none
        lines := 0
        trace := s.trace ++ pixelFrameEvents .master yields (lines .master)
          ++ pixelFrameEvents .slave yields (lines .slave) ++ refreshEvents k1 k2
        draws := s.draws + k1 + k2 + 2 } := by
  refine (reaches_halves yields lines s hf hpin hp).trans ?_
  refine (reaches_refreshProg _ k1 k2 (by exact hf) rfl (by exact d1) (by exact d2)).trans ?_
  simp only [afterHalves, afterHalf]
  rw [← driveTarget_both, driveTarget_of_bothInactive hpin]
  exact .refl _

/-! ### CLEAR and STREAM_IMAGE (R212, R213) -/

/-- `CLEAR`'s row of the admission table is `REFRESH_NOW`'s. -/
theorem admitClear_eq (s : State) :
    admitClear s =
      if (s.life = .ready ∨ s.life = .streaming) ∧ s.frame = none then none
      else some (if s.life ≠ .ready ∧ s.life ≠ .streaming then .illegalState else .frameOpen) :=
  admitRefreshNow_eq s

/-- `STREAM_IMAGE`'s row of the admission table is `REFRESH_NOW`'s. -/
theorem admitStreamImage_eq (s : State) :
    admitStreamImage s =
      if (s.life = .ready ∨ s.life = .streaming) ∧ s.frame = none then none
      else some (if s.life ≠ .ready ∧ s.life ≠ .streaming then .illegalState else .frameOpen) :=
  admitRefreshNow_eq s

/-- Settles O39: the words by the colour argument, the admission by its row, the run as two halves with row yields and the
refresh. -/
theorem clearOperation : Obligations.ClearOperation := by
  obtain ⟨hword, hbad, -⟩ := colourArgument
  refine ⟨hword, hbad, fun s c hs hl hfr => ?_, fun s c hs h => ?_, fun draw s c more k1 k2 hs hl hfr hpin d1 d2 => ?_⟩
  · rw [flatMap_panels]
    exact exec_of_admission_none (i := .clear c) hs ((admitClear_eq s).trans (if_pos ⟨hl, hfr⟩))
  · exact exec_of_admission_some (i := .clear c) hs ((admitClear_eq s).trans (if_neg h))
  · rw [hs.1, hfr]
    exact .of_admitted hs ((admitClear_eq s).trans (if_pos ⟨hl, hfr⟩))
      (reaches_compositorProg true _ { s with hostOps := more, prog := clearProg c } k1 k2 hs.2 hpin (clearProg_eq c) d1 d2)

theorem imageLines_flatMap_lineProg (img : Image) (p : Panel) :
    (imageLines img p).flatMap lineProg =
      (List.ofFn fun y : Fin 1600 => lineProg (packHalf (split (imageRow img y) p))).flatten := by
  rw [imageLines, List.flatMap_def, List.map_ofFn]
  rfl

/-- Settles O40: the words by the argument and operand checks, the admission by its row, the run as two halves and the
refresh. -/
theorem streamImageOperation : Obligations.StreamImageOperation := by
  refine ⟨fun arg img => ⟨?_, ?_⟩, fun s img hs hl hfr => ?_, fun s img hs h => ?_,
    fun draw s img more k1 k2 hs hl hfr hpin d1 d2 => ?_⟩
  · exact decode_opWord .streamImage arg (.image img)
  · exact decode_opWord .streamImage arg .absent
  · rw [flatMap_panels, ← imageLines_flatMap_lineProg, ← imageLines_flatMap_lineProg]
    exact exec_of_admission_none (i := .streamImage img) hs ((admitStreamImage_eq s).trans (if_pos ⟨hl, hfr⟩))
  · exact exec_of_admission_some (i := .streamImage img) hs ((admitStreamImage_eq s).trans (if_neg h))
  · rw [hs.1, hfr]
    exact .of_admitted hs ((admitStreamImage_eq s).trans (if_pos ⟨hl, hfr⟩))
      (reaches_compositorProg false _ { s with hostOps := more, prog := streamProg img } k1 k2 hs.2 hpin (streamProg_eq img)
        d1 d2)

end Sys2Proof.Machine
end

section
/-! PROOFS. The host triad comes to the refresh in the state `STREAM_IMAGE` comes to it in (R214). -/

namespace Sys2Proof.Machine

variable {draw : Nat → Level}

/-- Runs are deterministic and a final block waits, so a state on the way reaches the same final states. -/
theorem Reaches.final_iff {s u t : State} (h : Reaches draw s u) (ht : t.Final) : Reaches draw s t ↔ Reaches draw u t := by
  refine ⟨fun ⟨n, hn⟩ => ?_, h.trans⟩
  obtain ⟨m, hm⟩ := h
  refine ⟨n, ?_⟩
  calc runWith draw n u = runWith draw (m + n) s := (runWith_add hm).symm
    _ = runWith draw (n + m) s := by rw [Nat.add_comm]
    _ = runWith draw m t := runWith_add hn
    _ = .next t := runWith_final ht m

/-- The state `BEGIN_FRAME` leaves. -/
def afterBegin (p : Panel) (s : State) : State :=
  { s with
    life := .streaming
    frame := some p
    lines := 0
    pin := frameOpenPins p s.pin
    trace := s.trace ++ frameOpenEvents p }

/-- The state that writing lines leaves. -/
def afterLines (lines : List (List Byte)) (s : State) : State :=
  { s with lines := s.lines + lines.length, trace := s.trace ++ lines.flatMap (lineEvents false) }

/-- A host program that writes lines into an open frame with room for them. -/
theorem reaches_writeLines (p : Panel) (lines : List (List Byte)) (s : State) (more : List HostOp) (hs : s.Idle)
    (hl : s.life = .streaming) (hfr : s.frame = some p) (ha : pixelAllowed (some p) s.pin = true)
    (hroom : s.lines + lines.length ≤ 1600) (hlines : ∀ bs ∈ lines, bs.length = 300 ∧ bs.all validByte = true) :
    Reaches draw { s with hostOps := hostProgram (lines.map (.writeLine p)) ++ more }
      { afterLines lines s with hostOps := more } := by
  induction lines generalizing s with
  | nil => simpa [afterLines, hostProgram] using Reaches.refl _
  | cons bs lines ih =>
    obtain ⟨⟨hlen, hval⟩, hlines⟩ := List.forall_mem_cons.1 hlines
    rw [List.length_cons] at hroom
    obtain ⟨hsel, hother⟩ := (pixelAllowed_some_iff _ p).1 ha
    obtain ⟨-, -, hrun⟩ := writeLineOperation
    refine (hrun draw s p bs _ hs hl hfr hlen (by omega) hval hsel hother).trans ?_
    refine (ih { s with lines := s.lines + 1, trace := s.trace ++ bs.map (.byte .data) } hs hl hfr ha
      (by dsimp only; omega) hlines).trans ?_
    simpa [afterLines, lineEvents, Nat.add_assoc, Nat.add_comm 1] using Reaches.refl _

theorem reaches_beginFrame (p : Panel) {s : State} (more : List HostOp) (hs : s.Idle)
    (hl : s.life = .ready ∨ s.life = .streaming) (hfr : s.frame = none) :
    Reaches draw (s.offered (.beginFrame p) more) { afterBegin p s with hostOps := more } := by
  obtain ⟨-, -, -, -, -, hrun⟩ := beginFrameOperation
  cases p <;> exact hrun draw s _ more hs hl hfr

theorem reaches_endFrame (p : Panel) {s : State} (more : List HostOp) (hs : s.Idle) (hl : s.life = .streaming)
    (hfr : s.frame = some p) (hn : s.lines = 1600) :
    Reaches draw (s.offered (.endFrame p) more)
      { s with
        hostOps := more
        frame := none
        lines := 0
        pin := frameClosePins p s.pin
        trace := s.trace ++ frameCloseEvents p } := by
  obtain ⟨-, -, -, -, -, hrun⟩ := endFrameOperation
  cases p <;> exact hrun draw s _ more hs hl hfr hn

/-- The triad of one half emits the framing of that half and leaves no frame open. -/
theorem reaches_triadHalf (img : Image) (p : Panel) (s : State) (more : List HostOp) (hs : s.Idle)
    (hl : s.life = .ready ∨ s.life = .streaming) (hfr : s.frame = none) (hpin : s.pin.BothInactive) :
    Reaches draw { s with hostOps := hostProgram (triadHalf img p) ++ more }
      { afterHalf false p (imageLines img p) s with hostOps := more } := by
  have hops : hostProgram (triadHalf img p) ++ more = encode (.beginFrame p) ::
      (hostProgram ((imageLines img p).map (.writeLine p)) ++ encode (.endFrame p) :: more) := by
    simp [triadHalf, hostProgram]
  have hlen : 0 + (imageLines img p).length = 1600 := by simp
  rw [hops]
  refine (reaches_beginFrame p _ hs hl hfr).trans ?_
  refine (reaches_writeLines p (imageLines img p) (afterBegin p s) _ hs rfl rfl (pixelAllowed_of_bothInactive hpin p)
    hlen.le fun bs hbs => ⟨length_of_mem_imageLines hbs, List.all_eq_true.2 fun _ => validByte_of_mem_imageLines hbs⟩).trans ?_
  refine (reaches_endFrame p (s := afterLines (imageLines img p) (afterBegin p s)) more hs rfl rfl hlen).trans ?_
  simpa [afterLines, afterBegin, afterHalf, pixelFrameEvents,
    frameClosePins_frameOpenPins_of_bothInactive hpin] using Reaches.refl _

section Refresh

variable {s : State} (img : Image) (hs : s.Idle) (hl : s.life = .ready ∨ s.life = .streaming) (hfr : s.frame = none)
  (hpin : s.pin.BothInactive)
include hs hl hfr hpin

theorem reaches_refresh_of_streamImage :
    Reaches draw { s with hostOps := hostProgram [.streamImage img] }
      { afterHalves false (imageLines img) s with hostOps := [], prog := refreshProg } :=
  .of_admitted hs ((admitStreamImage_eq s).trans (if_pos ⟨hl, hfr⟩))
    (reaches_halves false _ { s with hostOps := [], prog := streamProg img } hs.2 hpin (streamProg_eq img))

theorem reaches_refresh_of_triadProgram :
    Reaches draw { s with hostOps := hostProgram (triadProgram img) }
      { afterHalves false (imageLines img) s with hostOps := [], prog := refreshProg } := by
  have hops : hostProgram (triadProgram img) = hostProgram (triadHalf img .master) ++
      (hostProgram (triadHalf img .slave) ++ [encode .refreshNow]) := by
    simp [triadProgram, hostProgram]
  rw [hops]
  refine (reaches_triadHalf img .master s _ hs hl hfr hpin).trans ?_
  refine (reaches_triadHalf img .slave (afterHalf false .master _ s) _ hs (.inr rfl) rfl hpin).trans ?_
  exact .of_offered (s := afterHalves false (imageLines img) s) hs [] (decodeOfEncode .refreshNow) rfl

end Refresh

/-- Settles O41: both programs come to the refresh in one state, and a run has no other way on from there. -/
theorem streamImageEqualsHostTriad : Obligations.StreamImageEqualsHostTriad := by
  intro draw s img hs hl hfr hpin t ht
  rw [(reaches_refresh_of_streamImage img hs hl hfr hpin).final_iff ht,
    (reaches_refresh_of_triadProgram img hs hl hfr hpin).final_iff ht]

end Sys2Proof.Machine
end

section
/-! PROOFS. `CLEAR` is the stream of a uniform image with a row yield after every line (R194, R212, R214). -/

namespace Sys2Proof.Machine

theorem imageRow_uniformImage (c : PixelColor) (y : Fin 1600) (x : Fin 1200) : imageRow (uniformImage c) y x = c := by
  simp [imageRow, uniformImage]

theorem split_uniformImage (c : PixelColor) (y : Fin 1600) (p : Panel) :
    split (imageRow (uniformImage c) y) p = fun _ => c := by
  funext x
  cases p <;> exact imageRow_uniformImage ..

theorem packHalf_const (c : PixelColor) : packHalf (fun _ => c) = List.replicate 300 (pack c c) :=
  List.ofFn_const ..

theorem imageLines_uniformImage (c : PixelColor) (p : Panel) : imageLines (uniformImage c) p = uniformLines c := by
  simp only [imageLines, split_uniformImage, packHalf_const]
  exact List.ofFn_const ..

/-- The micro-program with the row yields left out (R214). -/
def withoutYields (prog : List MicroOp) : List MicroOp := prog.filter fun m => m ≠ .delay Config.rowYieldMs

@[simp] theorem withoutYields_append (p q : List MicroOp) :
    withoutYields (p ++ q) = withoutYields p ++ withoutYields q := List.filter_append ..

theorem withoutYields_of_no_delay {prog : List MicroOp} (h : ∀ ms, MicroOp.delay ms ∉ prog) :
    withoutYields prog = prog :=
  List.filter_eq_self.2 fun _ hm => decide_eq_true fun heq => h _ (heq ▸ hm)

@[simp] theorem withoutYields_beginProg (p : Panel) : withoutYields (beginProg p) = beginProg p :=
  withoutYields_of_no_delay (by cases p <;> simp [beginProg])

@[simp] theorem withoutYields_endProg (p : Panel) : withoutYields (endProg p) = endProg p :=
  withoutYields_of_no_delay (by simp [endProg])

@[simp] theorem withoutYields_refreshProg : withoutYields refreshProg = refreshProg :=
  withoutYields_of_no_delay (by simp [refreshProg, cmdFrame, selectProg, deselectProg])

theorem withoutYields_rowProg (bs : List Byte) : withoutYields (rowProg true bs) = rowProg false bs := by
  have hline : withoutYields (lineProg bs) = lineProg bs := withoutYields_of_no_delay (by simp [lineProg])
  rw [rowProg, withoutYields_append, hline]
  rfl

@[simp] theorem withoutYields_halfProg (p : Panel) (lines : List (List Byte)) :
    withoutYields (halfProg true p lines) = halfProg false p lines := by
  have hrows : withoutYields (lines.flatMap (rowProg true)) = lines.flatMap (rowProg false) := by
    rw [withoutYields, List.filter_flatMap]
    exact congrArg lines.flatMap (funext withoutYields_rowProg)
  simp [halfProg, hrows]

theorem withoutYields_compositorProg (lines : Panel → List (List Byte)) :
    withoutYields (compositorProg true lines) = compositorProg false lines := by
  simp [compositorProg]

theorem clearProg_eq_uniformImage (c : PixelColor) :
    clearProg c = compositorProg true (imageLines (uniformImage c)) := by
  rw [clearProg_eq, funext (imageLines_uniformImage c)]

theorem withoutYields_clearProg (c : PixelColor) : withoutYields (clearProg c) = streamProg (uniformImage c) := by
  rw [clearProg_eq_uniformImage, withoutYields_compositorProg, streamProg_eq]

/-- With row yields, each line of 300 bytes is 301 events (R212). -/
theorem length_pixelFrameEvents (p : Panel) {lines : List (List Byte)} (h : ∀ bs ∈ lines, bs.length = Config.lineBytes) :
    (pixelFrameEvents p true lines).length =
      (frameOpenEvents p).length + 301 * lines.length + (frameCloseEvents p).length := by
  have hrows : ∀ es ∈ lines.map (lineEvents true), es.length = 301 := by
    rw [List.forall_mem_map]
    exact fun bs hbs => by simp [lineEvents, h bs hbs, Config.lineBytes]
  rw [pixelFrameEvents, List.flatMap_def, List.length_append, List.length_append, length_flatten_of_length_eq hrows,
    List.length_map]

theorem length_pixelFrameEvents_imageLines (img : Image) (p : Panel) :
    (pixelFrameEvents p true (imageLines img p)).length =
      (frameOpenEvents p).length + 481600 + (frameCloseEvents p).length := by
  rw [length_pixelFrameEvents p fun _ => length_of_mem_imageLines, length_imageLines]

/-- Settles O42: the lines of the uniform image are `CLEAR`'s, both operations have one admission, and leaving the row yields
out of `CLEAR`'s micro-program leaves `STREAM_IMAGE`'s. -/
theorem clearStreamsUniformImage : Obligations.ClearStreamsUniformImage := by
  refine fun c => ⟨fun s hs hl hfr => ?_, fun s hs => ?_, imageLines_uniformImage c,
    length_pixelFrameEvents_imageLines _ .master, length_pixelFrameEvents_imageLines _ .slave⟩
  · have ha : admission (.clear c) s = none := (admitClear_eq s).trans (if_pos ⟨hl, hfr⟩)
    rw [flatMap_panels, exec_of_admission_none hs ha, expand, clearProg_eq_uniformImage]
    rfl
  · cases ha : admission (.clear c) s with
    | none =>
      have hstream : exec (.streamImage (uniformImage c)) s = .next { s with prog := streamProg (uniformImage c) } :=
        exec_of_admission_none hs ha
      refine ⟨_, exec_of_admission_none hs ha, hstream.trans ?_⟩
      rw [← withoutYields_clearProg]
      rfl
    | some f =>
      refine ⟨_, exec_of_admission_some hs ha, ?_⟩
      rw [exec_of_admission_some (i := .streamImage (uniformImage c)) hs ha, hs.1]
      rfl

end Sys2Proof.Machine
end

section
/-! PROOFS. The seam of the row multiplexer (R210). -/

namespace Sys2Proof.Machine

/-- Settles O48: column 599 is the odd pixel of Master's last byte, column 600 the even pixel of Slave's first. -/
theorem splitAtSeam : Obligations.SplitAtSeam := by
  refine fun row => ⟨fun x => ⟨rfl, rfl⟩, ?_, ?_⟩
  · rw [getElem?_packHalf _ (by omega), Option.map_some, loNibble_pack]
    rfl
  · rw [getElem?_packHalf _ (by omega), Option.map_some, hiNibble_pack]
    rfl

end Sys2Proof.Machine
end

section
/-! PROOFS. A block reset is disciplined (R41, R260, R261), the boot sequence runs from it to `Ready` (R141, R143, R148, R263),
and a pixel byte goes out under its frame's chip select alone (R115, R268). -/

namespace Sys2Proof.Machine

variable {draw : Nat → Level}

/-! ### Reset -/

theorem disciplined_blockReset {launch : Pins} (h : launch.BothInactive) (s : State) :
    (blockReset launch s).Disciplined := by
  have hclosed : (shadowOf (blockReset launch s)).Closed := ⟨rfl, bothInactive_unselected h, Nat.zero_le _⟩
  rw [disciplined_of_no_fault (blockReset_fault s launch), blockReset_prog, endsQuiet_nil_iff]
  exact hclosed.quiet nofun nofun

/-- Settles O51: the reset state is itself the block reset on the latches of a clean start. -/
theorem resetIsDisciplined : Obligations.ResetIsDisciplined :=
  ⟨disciplined_blockReset ⟨rfl, rfl⟩ State.reset, fun _ s h => disciplined_blockReset h s⟩

/-! ### The boot sequence -/

/-- The state `POWER_ON` leaves, with and without the power pin in one record. -/
def afterPowerOn (s : State) : State :=
  { s with
    life := .uninitialized
    pin := { s.pin with pwr := if Config.hasPowerPin = true then some .high else s.pin.pwr }
    trace := s.trace ++ if Config.hasPowerPin = true then [.setPin .pwr .high, .delay Config.tPwrMs] else [] }

theorem powered_afterPowerOn (s : State) : powered (afterPowerOn s).pin = true := by
  rw [powered_iff]
  by_cases hpin : Config.hasPowerPin = true
  · exact .inr (if_pos hpin)
  · exact .inl (Bool.eq_false_of_not_eq_true hpin)

theorem reaches_powerOn {s : State} (more : List HostOp) (hs : s.Idle) (hl : s.life = .uninitialized ∨ s.life = .poweredOff)
    (hfr : s.frame = none) : Reaches draw (s.offered .powerOn more) { afterPowerOn s with hostOps := more } := by
  obtain ⟨-, -, -, -, hrun⟩ := powerOnOperation
  have hpower := hrun draw s more hs hl hfr
  by_cases hpin : Config.hasPowerPin = true
  · simpa only [afterPowerOn, if_pos hpin] using hpower
  · simpa only [afterPowerOn, if_neg hpin, List.append_nil] using hpower

/-- Settles O33: `POWER_ON` leaves the block powered for `RESET`, which leaves it resetting for `INITIALIZE`, and none of the
three opens a frame or leaves a chip select asserted. -/
theorem bootSequenceReachesReady : Obligations.BootSequenceReachesReady := by
  intro draw s hs hl hfr hpin
  obtain ⟨-, -, -, hreset⟩ := resetOperation
  obtain ⟨-, -, -, hinit, -⟩ := initializeOperation
  refine (reaches_powerOn (hostProgram [.reset, .initialise]) hs (.inl hl) hfr).trans ?_
  refine (hreset draw (afterPowerOn s) (hostProgram [.initialise]) hs (powered_afterPowerOn s) nofun hfr).trans ?_
  exact hinit draw
    { afterPowerOn s with
      life := .resetting
      pin := { (afterPowerOn s).pin with rst := some Config.rstAssert }
      trace := (afterPowerOn s).trace ++ resetEvents } [] hs rfl hfr hpin

/-! ### Pixel bytes -/

/-- Settles O56: a `PIXDATA` that finds other selects raises `CsConflict`, which leaves the trace as it was. -/
theorem pixelTransferExcludesTheOtherSelect : Obligations.PixelTransferExcludesTheOtherSelect := by
  intro s t b rest hp hstep htrace
  obtain ⟨hf, -⟩ := stepWith_next hstep
  obtain ⟨hsent, hconflict, -⟩ := pixelByteNeedsItsChipSelect s b rest hf hp
  by_cases hsel : ∃ p, s.frame = some p ∧ selected s.pin p = true ∧ selected s.pin (otherPanel p) = false
  case pos =>
    cases (hsent hsel).symm.trans hstep
    obtain ⟨p, hframe, hown, hother⟩ := hsel
    exact ⟨p, hframe, hown, hother, rfl⟩
  case neg =>
    cases (hconflict hsel).symm.trans hstep
    exact absurd rfl htrace

end Sys2Proof.Machine
end
